-- ==== Sys2Proof/Word.lean ====
section
/-! DEFINITION. The words of the machine (spec/00_scope.md R7, R12): byte, word, 12-bit address field, register index. -/

namespace Sys2Proof

/-- A byte: a general register, a timer, a memory cell (R12, R20). -/
abbrev Byte := BitVec 8

/-- A word: an instruction, `pc`, `I`, a stack entry (R12, R22, R23, R25). -/
abbrev Word := BitVec 16

/-- The 12-bit field `nnn` (R81, R83). -/
abbrev Addr12 := BitVec 12

/-- The index of a general register, the value of a field `x` or `y` (R20, R83). -/
abbrev Reg := Fin 16

/-- `VF` is `V[15]` (R20, R21). -/
abbrev VF : Reg := 15

end Sys2Proof
end

