-- ==== Sys2Proof/Syntax.lean ====
section
/-! DEFINITION. The 35 instructions of spec/30_encoding.md R85, one constructor per row of spec/opcode_table.json, in the
table's order, with the operand fields of R81. -/

namespace Sys2Proof

/-- The instructions of canonical CHIP-8 (R85). `x`, `y` name registers, `n` is a count of rows, `kk` a byte, `nnn` an
address. -/
inductive Instr where
  /-- `00E0` CLS (R190) -/
  | cls
  /-- `00EE` RET (R143) -/
  | ret
  /-- `0nnn` SYS nnn (R140) -/
  | sys (nnn : Addr12)
  /-- `1nnn` JP nnn (R141) -/
  | jp (nnn : Addr12)
  /-- `2nnn` CALL nnn (R142) -/
  | call (nnn : Addr12)
  /-- `3xkk` SE Vx, kk (R150) -/
  | seImm (x : Reg) (kk : Byte)
  /-- `4xkk` SNE Vx, kk (R151) -/
  | sneImm (x : Reg) (kk : Byte)
  /-- `5xy0` SE Vx, Vy (R152) -/
  | seReg (x y : Reg)
  /-- `6xkk` LD Vx, kk (R160) -/
  | ldImm (x : Reg) (kk : Byte)
  /-- `7xkk` ADD Vx, kk (R161) -/
  | addImm (x : Reg) (kk : Byte)
  /-- `8xy0` LD Vx, Vy (R162) -/
  | ldReg (x y : Reg)
  /-- `8xy1` OR Vx, Vy (R163) -/
  | orReg (x y : Reg)
  /-- `8xy2` AND Vx, Vy (R164) -/
  | andReg (x y : Reg)
  /-- `8xy3` XOR Vx, Vy (R165) -/
  | xorReg (x y : Reg)
  /-- `8xy4` ADD Vx, Vy (R166) -/
  | addReg (x y : Reg)
  /-- `8xy5` SUB Vx, Vy (R167) -/
  | sub (x y : Reg)
  /-- `8xy6` SHR Vx, Vy (R168) -/
  | shr (x y : Reg)
  /-- `8xy7` SUBN Vx, Vy (R169) -/
  | subn (x y : Reg)
  /-- `8xyE` SHL Vx, Vy (R170) -/
  | shl (x y : Reg)
  /-- `9xy0` SNE Vx, Vy (R153) -/
  | sneReg (x y : Reg)
  /-- `Annn` LD I, nnn (R180) -/
  | ldI (nnn : Addr12)
  /-- `Bnnn` JP V0, nnn (R144) -/
  | jpV0 (nnn : Addr12)
  /-- `Cxkk` RND Vx, kk (R171) -/
  | rnd (x : Reg) (kk : Byte)
  /-- `Dxyn` DRW Vx, Vy, n (R191) -/
  | drw (x y : Reg) (n : Fin 16)
  /-- `Ex9E` SKP Vx (R154) -/
  | skp (x : Reg)
  /-- `ExA1` SKNP Vx (R155) -/
  | sknp (x : Reg)
  /-- `Fx07` LD Vx, DT (R200) -/
  | ldVxDT (x : Reg)
  /-- `Fx0A` LD Vx, K (R201) -/
  | ldVxK (x : Reg)
  /-- `Fx15` LD DT, Vx (R202) -/
  | ldDTVx (x : Reg)
  /-- `Fx18` LD ST, Vx (R203) -/
  | ldSTVx (x : Reg)
  /-- `Fx1E` ADD I, Vx (R181) -/
  | addI (x : Reg)
  /-- `Fx29` LD F, Vx (R182) -/
  | ldF (x : Reg)
  /-- `Fx33` LD B, Vx (R183) -/
  | ldB (x : Reg)
  /-- `Fx55` LD [I], Vx (R184) -/
  | storeRegs (x : Reg)
  /-- `Fx65` LD Vx, [I] (R185) -/
  | loadRegs (x : Reg)
  deriving DecidableEq, Repr

end Sys2Proof
end

