-- ==== Sys2Proof/Decode.lean ====
section
/-! DEFINITION. The decoder and, after it, the encoder (spec/30_encoding.md R80 to R92). -/

namespace Sys2Proof

/-- Why bytes are no instruction. `unknownOpcode` is the condition of R86; `truncated` says that fewer than two bytes are
left, which no fetch meets (R80). -/
inductive DecodeError where
  | unknownOpcode (w : Word)
  | truncated
  deriving DecidableEq, Repr

/-- Field `u`, bits 15 to 12 (R81). -/
def fieldU (w : Word) : Fin 16 := Fin.ofNat 16 (w >>> 12).toNat

/-- Field `x`, bits 11 to 8 (R81). -/
def fieldX (w : Word) : Reg := Fin.ofNat 16 (w >>> 8).toNat

/-- Field `y`, bits 7 to 4 (R81). -/
def fieldY (w : Word) : Reg := Fin.ofNat 16 (w >>> 4).toNat

/-- Field `n`, bits 3 to 0 (R81). -/
def fieldN (w : Word) : Fin 16 := Fin.ofNat 16 w.toNat

/-- Field `kk`, bits 7 to 0 (R81). -/
def fieldKK (w : Word) : Byte := w.setWidth 8

/-- Field `nnn`, bits 11 to 0 (R81). -/
def fieldNNN (w : Word) : Addr12 := w.setWidth 12

/-- One entry of the opcode map: a word `w` matches it when `w &&& mask = pattern` (R84). -/
structure OpcodeRow where
  mask : Word
  pattern : Word
  build : Word → Instr

/-- R84: the test of one entry. -/
def OpcodeRow.matchesWord (r : OpcodeRow) (w : Word) : Bool := w &&& r.mask == r.pattern

/-- Rows 1 to 10 of R85. -/
def opcodeRowsA : List OpcodeRow := [
  ⟨0xFFFF, 0x00E0, fun _ => .cls⟩,
  ⟨0xFFFF, 0x00EE, fun _ => .ret⟩,
  ⟨0xF000, 0x0000, fun w => .sys (fieldNNN w)⟩,
  ⟨0xF000, 0x1000, fun w => .jp (fieldNNN w)⟩,
  ⟨0xF000, 0x2000, fun w => .call (fieldNNN w)⟩,
  ⟨0xF000, 0x3000, fun w => .seImm (fieldX w) (fieldKK w)⟩,
  ⟨0xF000, 0x4000, fun w => .sneImm (fieldX w) (fieldKK w)⟩,
  ⟨0xF00F, 0x5000, fun w => .seReg (fieldX w) (fieldY w)⟩,
  ⟨0xF000, 0x6000, fun w => .ldImm (fieldX w) (fieldKK w)⟩,
  ⟨0xF000, 0x7000, fun w => .addImm (fieldX w) (fieldKK w)⟩]

/-- Rows 11 to 20 of R85. -/
def opcodeRowsB : List OpcodeRow := [
  ⟨0xF00F, 0x8000, fun w => .ldReg (fieldX w) (fieldY w)⟩,
  ⟨0xF00F, 0x8001, fun w => .orReg (fieldX w) (fieldY w)⟩,
  ⟨0xF00F, 0x8002, fun w => .andReg (fieldX w) (fieldY w)⟩,
  ⟨0xF00F, 0x8003, fun w => .xorReg (fieldX w) (fieldY w)⟩,
  ⟨0xF00F, 0x8004, fun w => .addReg (fieldX w) (fieldY w)⟩,
  ⟨0xF00F, 0x8005, fun w => .sub (fieldX w) (fieldY w)⟩,
  ⟨0xF00F, 0x8006, fun w => .shr (fieldX w) (fieldY w)⟩,
  ⟨0xF00F, 0x8007, fun w => .subn (fieldX w) (fieldY w)⟩,
  ⟨0xF00F, 0x800E, fun w => .shl (fieldX w) (fieldY w)⟩,
  ⟨0xF00F, 0x9000, fun w => .sneReg (fieldX w) (fieldY w)⟩]

/-- Rows 21 to 26 of R85. -/
def opcodeRowsC : List OpcodeRow := [
  ⟨0xF000, 0xA000, fun w => .ldI (fieldNNN w)⟩,
  ⟨0xF000, 0xB000, fun w => .jpV0 (fieldNNN w)⟩,
  ⟨0xF000, 0xC000, fun w => .rnd (fieldX w) (fieldKK w)⟩,
  ⟨0xF000, 0xD000, fun w => .drw (fieldX w) (fieldY w) (fieldN w)⟩,
  ⟨0xF0FF, 0xE09E, fun w => .skp (fieldX w)⟩,
  ⟨0xF0FF, 0xE0A1, fun w => .sknp (fieldX w)⟩]

/-- Rows 27 to 35 of R85. -/
def opcodeRowsD : List OpcodeRow := [
  ⟨0xF0FF, 0xF007, fun w => .ldVxDT (fieldX w)⟩,
  ⟨0xF0FF, 0xF00A, fun w => .ldVxK (fieldX w)⟩,
  ⟨0xF0FF, 0xF015, fun w => .ldDTVx (fieldX w)⟩,
  ⟨0xF0FF, 0xF018, fun w => .ldSTVx (fieldX w)⟩,
  ⟨0xF0FF, 0xF01E, fun w => .addI (fieldX w)⟩,
  ⟨0xF0FF, 0xF029, fun w => .ldF (fieldX w)⟩,
  ⟨0xF0FF, 0xF033, fun w => .ldB (fieldX w)⟩,
  ⟨0xF0FF, 0xF055, fun w => .storeRegs (fieldX w)⟩,
  ⟨0xF0FF, 0xF065, fun w => .loadRegs (fieldX w)⟩]

/-- The opcode map, in the order of R85 (R84: `00E0` and `00EE` stand before `0nnn`). -/
def opcodeTable : List OpcodeRow := opcodeRowsA ++ opcodeRowsB ++ opcodeRowsC ++ opcodeRowsD

/-- The first entry that matches wins (R84). -/
def decodeWith : List OpcodeRow → Word → Except DecodeError Instr
  | [], w => .error (.unknownOpcode w)
  | r :: rest, w => if r.matchesWord w then .ok (r.build w) else decodeWith rest w

/-- `decode`: a pure total function of the word (R91). -/
def decode (w : Word) : Except DecodeError Instr := decodeWith opcodeTable w

/-- The word of two bytes in big-endian order (R54). -/
def wordOfBytes (hi lo : Byte) : Word := hi ++ lo

/-- The two bytes of a word in memory order (R54). -/
def bytesOfWord (w : Word) : List Byte := [(w >>> 8).setWidth 8, w.setWidth 8]

/-- Decoding bytes in memory order: one instruction and the bytes after it (R54, R80). -/
def decodeBytes : List Byte → Except DecodeError (Instr × List Byte)
  | hi :: lo :: rest => match decode (wordOfBytes hi lo) with
    | .ok i => .ok (i, rest)
    | .error e => .error e
  | _ => .error .truncated

/-- The instruction the decoder reads from a word numbered as spec/opcode_table.json numbers it: the word's low `nbits`
bits, laid out big-endian. -/
def decodeTableWord (nbits w : Nat) : Option Instr :=
  match decodeBytes (bytesOfWord (BitVec.ofNat 16 (w % 2 ^ nbits))) with
  | .ok (i, _) => some i
  | .error _ => none

/-- Format `NNN` (R82). -/
def wordNNN (u : Nat) (nnn : Addr12) : Word := BitVec.ofNat 16 (u * 0x1000 + nnn.toNat)

/-- Format `XKK` (R82). -/
def wordXKK (u : Nat) (x : Reg) (kk : Byte) : Word := BitVec.ofNat 16 (u * 0x1000 + x.val * 0x100 + kk.toNat)

/-- Formats `XY` and `XYN` (R82). -/
def wordXYN (u : Nat) (x y : Reg) (n : Nat) : Word :=
  BitVec.ofNat 16 (u * 0x1000 + x.val * 0x100 + y.val * 0x10 + n)

/-- Format `X` (R82). -/
def wordX (u : Nat) (x : Reg) (kk : Nat) : Word := BitVec.ofNat 16 (u * 0x1000 + x.val * 0x100 + kk)

/-- The word of an instruction: its operand values put into its pattern of R85 (R89). -/
def encode : Instr → Word
  | .cls => 0x00E0
  | .ret => 0x00EE
  | .sys nnn => wordNNN 0x0 nnn
  | .jp nnn => wordNNN 0x1 nnn
  | .call nnn => wordNNN 0x2 nnn
  | .seImm x kk => wordXKK 0x3 x kk
  | .sneImm x kk => wordXKK 0x4 x kk
  | .seReg x y => wordXYN 0x5 x y 0x0
  | .ldImm x kk => wordXKK 0x6 x kk
  | .addImm x kk => wordXKK 0x7 x kk
  | .ldReg x y => wordXYN 0x8 x y 0x0
  | .orReg x y => wordXYN 0x8 x y 0x1
  | .andReg x y => wordXYN 0x8 x y 0x2
  | .xorReg x y => wordXYN 0x8 x y 0x3
  | .addReg x y => wordXYN 0x8 x y 0x4
  | .sub x y => wordXYN 0x8 x y 0x5
  | .shr x y => wordXYN 0x8 x y 0x6
  | .subn x y => wordXYN 0x8 x y 0x7
  | .shl x y => wordXYN 0x8 x y 0xE
  | .sneReg x y => wordXYN 0x9 x y 0x0
  | .ldI nnn => wordNNN 0xA nnn
  | .jpV0 nnn => wordNNN 0xB nnn
  | .rnd x kk => wordXKK 0xC x kk
  | .drw x y n => wordXYN 0xD x y n.val
  | .skp x => wordX 0xE x 0x9E
  | .sknp x => wordX 0xE x 0xA1
  | .ldVxDT x => wordX 0xF x 0x07
  | .ldVxK x => wordX 0xF x 0x0A
  | .ldDTVx x => wordX 0xF x 0x15
  | .ldSTVx x => wordX 0xF x 0x18
  | .addI x => wordX 0xF x 0x1E
  | .ldF x => wordX 0xF x 0x29
  | .ldB x => wordX 0xF x 0x33
  | .storeRegs x => wordX 0xF x 0x55
  | .loadRegs x => wordX 0xF x 0x65

end Sys2Proof
end

