-- ==== Sys2Proof/Config.lean ====
section
/-! DEFINITION. What is fixed for one machine (spec/00_scope.md R6) and the values nobody fixes (R33, R118). -/

namespace Sys2Proof.Config

/-- `MEM_SIZE` (R6, R50). -/
abbrev memSize : Nat := 4096

/-- `PROGRAM_BASE`: the first address above the reserved region (R6, R51). -/
abbrev programBase : Nat := 0x200

/-- `MAX_PROGRAM`, which is `4096 - 0x200` (R6, R67, R250). -/
abbrev maxProgram : Nat := 3584

/-- `STACK_DEPTH` (R6, R25; the conflict C1 is settled at 16). -/
abbrev stackDepth : Nat := 16

/-- `SYS_POLICY`: what the `0nnn` words do (R6, R140). -/
inductive SysPolicy where
  /-- the default: a no-operation that advances -/
  | nop
  /-- the alternative: the fault SysTrap -/
  | fatal
  deriving DecidableEq, Repr

/-- The parameters a model takes as an argument (R6): constants of one machine, which no event changes (R32).
`fontBase` is `FONT_BASE`, with the constraint `FONT_BASE + 80 <= 0x200` in its type (R61). -/
structure Params where
  fontBase : Fin 0x1B1
  loadStoreIncrementI : Bool
  sysPolicy : SysPolicy
  deriving DecidableEq, Repr

/-- The values of R6: the suggested `FONT_BASE` (DESIGN CHOICE, log 4) and the two defaults the document fixes. -/
def defaultParams : Params := { fontBase := 0x050, loadStoreIncrementI := false, sysPolicy := .nop }

/-- The 16 glyphs of five bytes, digit `0` first (R61). -/
def font : List Byte :=
  [0xF0, 0x90, 0x90, 0x90, 0xF0] ++ [0x20, 0x60, 0x20, 0x20, 0x70] ++
  [0xF0, 0x10, 0xF0, 0x80, 0xF0] ++ [0xF0, 0x10, 0xF0, 0x10, 0xF0] ++
  [0x90, 0x90, 0xF0, 0x10, 0x10] ++ [0xF0, 0x80, 0xF0, 0x10, 0xF0] ++
  [0xF0, 0x80, 0xF0, 0x90, 0xF0] ++ [0xF0, 0x10, 0x20, 0x40, 0x40] ++
  [0xF0, 0x90, 0xF0, 0x90, 0xF0] ++ [0xF0, 0x90, 0xF0, 0x10, 0xF0] ++
  [0xF0, 0x90, 0xF0, 0x90, 0x90] ++ [0xE0, 0x90, 0xE0, 0x90, 0xE0] ++
  [0xF0, 0x80, 0x80, 0x80, 0xF0] ++ [0xE0, 0x90, 0x90, 0x90, 0xE0] ++
  [0xF0, 0x80, 0xF0, 0x80, 0xF0] ++ [0xF0, 0x80, 0xF0, 0x80, 0x80]


/-- The key levels the host presents with the `n`-th instruction when nothing else says them: a free value (R33, R118;
log 2). -/
opaque freeKeys : Nat → BitVec 16

/-- The random byte the host presents with the `n`-th instruction when nothing else says it: a free value (R33, R171;
log 2). -/
opaque freeRnd : Nat → Byte

end Sys2Proof.Config
end

