-- ==== Sys2Proof/Machine/State.lean ====
section
/-! DEFINITION. The state of one machine (spec/10_state.md), as plain data, and the state after reset (R34, R251). -/

namespace Sys2Proof.Machine

open Sys2Proof.Config (Params SysPolicy)

/-- `run`: the engine state (R29). -/
inductive RunState where
  | running
  | waitingForKey
  | halted
  deriving DecidableEq, Repr

/-- The causes a fault record can hold, `none` when there is no fault (R210, R211). -/
inductive Cause where
  | none
  | unknownOpcode
  | stackOverflow
  | stackUnderflow
  | outOfRange
  | badPC
  | reservedWrite
  | sysTrap
  deriving DecidableEq, Repr

/-- The fault record the host reads after the machine halts (R31). -/
structure FaultRecord where
  cause : Cause
  pc : Word
  word : Word
  info : BitVec 17
  deriving DecidableEq, Repr

/-- The two inputs of a Step, which are not state (R33): the key levels and the random byte. -/
structure Inputs where
  keys : BitVec 16
  rnd : Byte
  deriving DecidableEq, Repr

/-- The four events that change the state, with what the host sends (R5, R110). -/
inductive Event where
  /-- one instruction, with the key levels and the random byte presented (R111, R118) -/
  | step (keys : BitVec 16) (rnd : Byte)
  /-- the timers count down (R115) -/
  | tick
  /-- a key-press edge (R116) -/
  | supplyKey (k : BitVec 4)
  /-- reset and install a program (R250) -/
  | load (bytes : List Byte)
  deriving DecidableEq, Repr

/-- Memory: the listed cells, sorted by address; an unlisted address reads as `unlisted` says (log 8). -/
abbrev Memory := List Host.Cell

/-- What an unlisted address reads as: the reset contents, font bytes at `FONT_BASE` and `0x00` elsewhere (R27, R34). -/
def unlisted (fontBase : Fin 0x1B1) (a : Nat) : Byte :=
  if a < fontBase.val then 0x00 else Config.font.getD (a - fontBase.val) 0x00

/-- The display surface: row `r` is a word of 64 bits whose bit `c` is the pixel in column `c` (R28; log 10). -/
abbrev Display := Vector (BitVec 64) 32

/-- The whole state of one machine (spec/10_state.md section 1), the parameters of R6, and the model's own last three
fields, which carry what the host chooses (log 1, log 2). -/
structure State where
  /-- general registers, `V[15]` is `VF` (R20, R21) -/
  V : Vector Byte 16
  /-- program counter (R22) -/
  pc : Word
  /-- address register (R23) -/
  I : Word
  /-- stack pointer: the number of valid entries (R24) -/
  SP : Byte
  /-- call stack (R25) -/
  stack : Vector Word Config.stackDepth
  /-- delay timer (R26) -/
  DT : Byte
  /-- sound timer (R26) -/
  ST : Byte
  /-- memory (R27) -/
  mem : Memory
  /-- display surface (R28) -/
  disp : Display
  /-- run state (R29) -/
  run : RunState
  /-- `wait_x`: the register of a pending key wait (R30) -/
  waitX : Reg
  /-- fault record (R31) -/
  fault : FaultRecord
  /-- the parameters of this machine, constants (R6, R32; log 4) -/
  params : Params
  /-- the model's own: the events the host sends next, first to last (R117; log 1) -/
  schedule : List Event
  /-- the model's own: the inputs the host presented with the last Step, if it said them (R33; log 2) -/
  input : Option Inputs
  /-- the model's own: which free inputs the next instruction meets (R33; log 2) -/
  draws : Nat
  deriving DecidableEq, Repr

/-- Why `Host.Outcome.fault` is answered. The faults of spec/60_exceptions.md are not here: their entry is described
(R212), so they are next states. -/
inductive Fault where
  /-- Raised by CALL and RET alone, when `SP` is above the stack depth and names an entry that does not exist (R24 says
  such values never occur). Safe: the model stops where the spec says nothing (log 6). -/
  | noStackEntry
  deriving DecidableEq, Repr

/-- Why `Host.Outcome.refused` is answered. -/
inductive Refusal where
  /-- Raised by an arm of `exec` whose instruction has no meaning yet; no arm of this model is left so. Safe. -/
  | notModelled (mnemonic : String)
  deriving DecidableEq, Repr

/-- A fault record with all fields 0 (R31, R34). -/
def FaultRecord.clear : FaultRecord := { cause := .none, pc := 0, word := 0, info := 0 }

/-- The state after a successful Load of the empty program, for a machine with the given parameters (R34, R251). -/
def State.resetWith (params : Params) : State where
  V := Vector.replicate 16 0x00
  pc := 0x0200
  I := 0x0000
  SP := 0x00
  stack := Vector.replicate Config.stackDepth 0x0000
  DT := 0x00
  ST := 0x00
  mem := []
  disp := Vector.replicate 32 0
  run := .running
  waitX := 0
  fault := FaultRecord.clear
  params := params
  schedule := []
  input := none
  draws := 0

/-- The machine right after reset (R34, R251) with the parameters of R6. -/
def State.reset : State := State.resetWith Config.defaultParams

end Sys2Proof.Machine
end

