-- ==== Sys2Proof/Machine/Ops.lean ====
section
/-! DEFINITION. The named operations every instruction and event is made of: registers, memory, the PC sequencer, taking
a fault, the stack, the display, and the events Tick, SupplyKey and Load (spec/20_memory.md, 40_execution_cycle.md,
60_exceptions.md, 70_reset_and_hazards.md). -/

namespace Sys2Proof.Machine

/-- What a meaning and a step answer. -/
abbrev Result := Host.Outcome State Fault Refusal

/-! ### General registers -/

/-- `V[x]` (R8, R20). -/
def State.getV (s : State) (x : Reg) : Byte := s.V[x.val]

/-- `V[x] <- v` (R8, R20). -/
def State.setV (s : State) (x : Reg) (v : Byte) : State := { s with V := s.V.set x.val v }

/-! ### Memory -/

/-- The byte at an address (R27, R34). -/
def Memory.read (fontBase : Fin 0x1B1) : Memory → Nat → Byte
  | [], a => unlisted fontBase a
  | (k, v) :: rest, a => if k = a then v else Memory.read fontBase rest a

/-- The list with the cell of one address set, in address order. -/
def Memory.insert : Memory → Nat → Byte → Memory
  | [], a, v => [(a, v)]
  | (k, w) :: rest, a, v =>
    if a < k then (a, v) :: (k, w) :: rest
    else if a = k then (a, v) :: rest
    else (k, w) :: Memory.insert rest a v

/-- The list without the cell of one address. -/
def Memory.erase (m : Memory) (a : Nat) : Memory := m.filter fun c => c.1 ≠ a

/-- `mem[a] <- v`: a byte equal to what an unlisted address reads as is not listed (log 8). -/
def Memory.write (fontBase : Fin 0x1B1) (m : Memory) (a : Nat) (v : Byte) : Memory :=
  if v = unlisted fontBase a then m.erase a else m.insert a v

/-- The canonical form: addresses strictly rising and inside memory, and no cell that says what an unlisted address reads
as anyway (log 8). -/
abbrev Memory.wf (fontBase : Fin 0x1B1) (m : Memory) : Prop :=
  m.Pairwise (fun c d => c.1 < d.1) ∧ ∀ c ∈ m, c.1 < Config.memSize ∧ c.2 ≠ unlisted fontBase c.1

/-- `mem[a]` of a machine, with no check (R8). -/
def State.readByte (s : State) (a : Nat) : Byte := s.mem.read s.params.fontBase a

/-- A fault that is being raised: its cause and its info value (R9, R210). -/
structure Raised where
  cause : Cause
  info : Nat
  deriving DecidableEq, Repr

/-- `MemRead(addr, 1)` (R52). -/
def State.read8 (s : State) (addr : Nat) : Except Raised Byte :=
  if Config.memSize ≤ addr then .error ⟨.outOfRange, max addr Config.memSize⟩ else .ok (s.readByte addr)

/-- `MemRead(addr, 2)`: the byte at the lower address is the high byte (R52, R54). -/
def State.readWord (s : State) (addr : Nat) : Except Raised Word :=
  if Config.memSize ≤ addr + 1 then .error ⟨.outOfRange, max addr Config.memSize⟩
  else .ok (wordOfBytes (s.readByte addr) (s.readByte (addr + 1)))

/-- `MemWrite(addr, 1, v)` (R53, R59). -/
def State.write8 (s : State) (addr : Nat) (v : Byte) : Except Raised State :=
  if Config.memSize ≤ addr then .error ⟨.outOfRange, addr⟩
  else if addr < Config.programBase then .error ⟨.reservedWrite, addr⟩
  else .ok { s with mem := s.mem.write s.params.fontBase addr v }

/-- The `len` bytes from `addr` upward, or the first fault met (R57, R58). -/
def State.loadBytes (s : State) (addr : Nat) : (len : Nat) → Except Raised (List Byte)
  | 0 => .ok []
  | len + 1 =>
    match s.read8 addr with
    | .error e => .error e
    | .ok b =>
      match s.loadBytes (addr + 1) len with
      | .error e => .error e
      | .ok bs => .ok (b :: bs)

/-- The state with the bytes stored from `addr` upward, or the first fault met, with nothing stored (R57, R58, R213). -/
def State.storeBytes (s : State) (addr : Nat) : List Byte → Except Raised State
  | [] => .ok s
  | b :: bs =>
    match s.write8 addr b with
    | .error e => .error e
    | .ok s' => s'.storeBytes (addr + 1) bs

/-! ### Taking a fault (R212). There is no return from one (R215): only `State.load` below leaves Halted. -/

/-- The word at `pc`, or 0 where it cannot be fetched: what R212 records as `fault.word` (log 5). -/
def State.wordAtPc (s : State) : Word :=
  match s.readWord s.pc.toNat with
  | .ok w => w
  | .error _ => 0x0000

/-- Fault entry: the record is written, the machine halts, and nothing else changes (R212, R213). -/
def State.raise (s : State) (e : Raised) : State :=
  { s with
    run := .halted
    fault := { cause := e.cause, pc := s.pc, word := s.wordAtPc, info := BitVec.ofNat 17 e.info } }

/-! ### The PC sequencer -/

/-- The values `pc` may hold: even, from `0x200` to `0xFFE` (R22, R113). -/
def legalPC (t : Nat) : Bool := t % 2 == 0 && decide (Config.programBase ≤ t) && decide (t ≤ 0xFFE)

/-- `SetPC(t)`, closing an event that began in `before` and whose other writes give `after`. A refused target undoes
them: the fault is taken in `before` (R113, R213). -/
def State.setPC (before : State) (t : Nat) (after : State) : State :=
  if legalPC t then { after with pc := BitVec.ofNat 16 t } else before.raise ⟨.badPC, t⟩

/-- `Advance()` (R112). -/
def State.advance (before after : State) : State := before.setPC (before.pc.toNat + 2) after

/-- `Skip()` (R112). DESIGN CHOICE, log 14: at `pc = 0xFFE` the refused target is `0x1002`, as R113's case and vector K21
say; R150's Faults line says `0x1000` there. -/
def State.skip (before after : State) : State := before.setPC (before.pc.toNat + 4) after

/-- The closing of a conditional skip (R112 and the pseudocode of R150; the info of its fault at `0xFFE`: log 14). -/
def State.skipIf (s : State) (c : Bool) : State := if c then s.skip s else s.advance s

/-- Closing after a part that can raise: its fault, or the advance (R111, R214). -/
def State.advanceOr (s : State) : Except Raised State → State
  | .error e => s.raise e
  | .ok after => s.advance after

/-! ### The call stack (R24, R25) -/

/-- `stack[SP] <- ret`, then `SP <- SP + 1`; nothing where `stack[SP]` does not exist (R142; log 6). -/
def State.push (s : State) (ret : Word) : Option State :=
  if h : s.SP.toNat < Config.stackDepth then
    some { s with stack := s.stack.set s.SP.toNat ret, SP := s.SP + 1 }
  else none

/-- `stack[SP - 1]` and the state with `SP <- SP - 1`; nothing where that entry does not exist (R143; log 6). -/
def State.pop (s : State) : Option (Word × State) :=
  if h : s.SP.toNat - 1 < Config.stackDepth then
    some (s.stack[s.SP.toNat - 1], { s with SP := s.SP - 1 })
  else none

/-! ### The display (R28, R190 to R193) -/

/-- `disp[r][c]` (R8). -/
def Display.lit (d : Display) (r : Fin 32) (c : Fin 64) : Bool := d[r.val].getLsbD c.val

/-- `disp[r][c] <- disp[r][c] ^ 1` (R191). -/
def Display.toggle (d : Display) (r : Fin 32) (c : Fin 64) : Display :=
  d.set r.val (d[r.val] ^^^ (1#64 <<< c.val))

/-- Every pixel 0 (R190). -/
def Display.blank : Display := Vector.replicate 32 0

/-- The inner part of the draw over the pixels a sprite's 1 bits land on: a lit one sets the hit, and each is inverted
(R191). -/
def Display.draw (d : Display) (hit : Bool) : List (Fin 32 × Fin 64) → Display × Bool
  | [] => (d, hit)
  | (r, c) :: rest => Display.draw (d.toggle r c) (hit || d.lit r c) rest

/-! ### The inputs of a Step (R33, R118) -/

/-- The inputs the host presents with an instruction: what the schedule said, or else free ones (log 2). -/
def State.present (s : State) (inp : Option Inputs) : State := { s with input := inp, draws := s.draws + 1 }

/-- The key levels of this Step (R33, R118). -/
def State.keys (s : State) : BitVec 16 :=
  match s.input with
  | some inp => inp.keys
  | none => Config.freeKeys s.draws

/-- `isKeyDown(k)`: what the host answers the core (R219, R256). -/
def State.isKeyDown (s : State) (k : Fin 16) : Bool := s.keys.getLsbD k.val

/-- The random byte of this Step (R33, R118, R171). -/
def State.rnd (s : State) : Byte :=
  match s.input with
  | some inp => inp.rnd
  | none => Config.freeRnd s.draws

/-! ### The events other than Step -/

/-- A counter one less, never below 0 (R26, R115). -/
def countDown (t : Byte) : Byte := if 0 < t.toNat then t - 1 else t

/-- `Tick` (R115): both counters, in every run state. -/
def State.tick (s : State) : State := { s with DT := countDown s.DT, ST := countDown s.ST }

/-- `SupplyKey(k)` (R116): ends a key wait, and changes nothing outside one. -/
def State.supplyKey (s : State) (k : BitVec 4) : State :=
  match s.run with
  | .waitingForKey => s.advance { s.setV s.waitX (k.setWidth 8) with run := .running }
  | .running => s
  | .halted => s

/-- The cells of a program image from address `a` upward, in canonical form (R67, R250). -/
def programCells (fontBase : Fin 0x1B1) : Nat → List Byte → Memory
  | _, [] => []
  | a, b :: bs =>
    if b = unlisted fontBase a then programCells fontBase (a + 1) bs
    else (a, b) :: programCells fontBase (a + 1) bs

/-- A Load is accepted when the image has at most `MAX_PROGRAM` bytes (R67, R225, R250). -/
def loadAccepted (bytes : List Byte) : Bool := decide (bytes.length ≤ Config.maxProgram)

/-- `Load(bytes)`: the only reset, and the only way out of Halted; a rejected one changes nothing (R215, R225, R250). The
parameters are constants (R32), and the model's own fields are the host's, not the machine's (log 1, log 2). -/
def State.load (s : State) (bytes : List Byte) : State :=
  if loadAccepted bytes then
    { State.resetWith s.params with
      mem := programCells s.params.fontBase Config.programBase bytes
      schedule := s.schedule
      input := s.input
      draws := s.draws }
  else s

/-! ### What the host reads (R256) -/

/-- `getPixel(x, y)`: column first (R193). -/
def State.getPixel (s : State) (x : Fin 64) (y : Fin 32) : Bool := s.disp.lit y x

/-- `getDelay()` (R218, R256). -/
def State.getDelay (s : State) : Byte := s.DT

/-- `getSound()` (R221, R256). -/
def State.getSound (s : State) : Byte := s.ST

/-- `tone_on = (ST != 0)` (R221). -/
def State.toneOn (s : State) : Bool := s.ST != 0

/-- The 4-bit code of a cause (R211). -/
def Cause.code : Cause → BitVec 4
  | .none => 0
  | .unknownOpcode => 1
  | .stackOverflow => 2
  | .stackUnderflow => 3
  | .outOfRange => 4
  | .badPC => 5
  | .reservedWrite => 6
  | .sysTrap => 7

/-! ### Placing one instruction by hand (log 3) -/

/-- The state with a word standing at `pc`, running, and no event before the next Step (log 3). -/
def State.placeWord (s : State) (w : Word) : State :=
  { s with
    mem := (s.mem.write s.params.fontBase s.pc.toNat ((w >>> 8).setWidth 8)).write s.params.fontBase
      (s.pc.toNat + 1) (w.setWidth 8)
    run := .running
    schedule := [] }

end Sys2Proof.Machine
end

