-- ==== Sys2Proof/Machine/Flags.lean ====
section
/-! DEFINITION. The flag computations (spec/10_state.md R21, 43_alu.md R166 to R173) and the order of the flag write. -/

namespace Sys2Proof.Machine

/-- A flag value: `0x01` or `0x00` (R21). -/
def flagByte (b : Bool) : Byte := if b then 0x01 else 0x00

/-- Carry and sum (R166, R173). -/
def addFlagged (a b : Byte) : Byte × Byte :=
  (flagByte (decide (255 < a.toNat + b.toNat)), BitVec.ofNat 8 (a.toNat + b.toNat))

/-- Not-borrow and difference of `a - b` (R167, R169, R173). -/
def subFlagged (a b : Byte) : Byte × Byte :=
  (flagByte (decide (b.toNat ≤ a.toNat)), BitVec.ofNat 8 (a.toNat + 256 - b.toNat))

/-- Bit 0 and the byte shifted right by one (R168, R173). -/
def shrFlagged (b : Byte) : Byte × Byte := (flagByte (b.getLsbD 0), b >>> 1)

/-- Bit 7 and the byte shifted left by one (R170, R173). -/
def shlFlagged (b : Byte) : Byte × Byte := (flagByte (b.getLsbD 7), b <<< 1)

/-- `V[15] <- flag`, then `V[x] <- result` (R172). -/
def State.writeFlagged (s : State) (x : Reg) (fr : Byte × Byte) : State := (s.setV VF fr.1).setV x fr.2

end Sys2Proof.Machine
end

