-- ==== Sys2Proof/Machine/Operands.lean ====
section
/-! DEFINITION. The operand forms: key index, glyph address, jump target, decimal digits, register blocks, sprite pixels
(spec/41_flow.md R144, 42_skips.md R154, 44_index_memory.md, 45_display.md R192). -/

namespace Sys2Proof.Machine

/-- `V[x][3:0]`: the key or the glyph a register names (R154, R182). -/
def lowNibble (v : Byte) : Fin 16 := Fin.ofNat 16 v.toNat

/-- `keys[k]` for the key that `V[x]` names (R154, R155). -/
def State.keyDown (s : State) (x : Reg) : Bool := s.isKeyDown (lowNibble (s.getV x))

/-- `FONT_BASE + 5 * d` (R61, R182). -/
def glyphAddress (fontBase : Fin 0x1B1) (d : Fin 16) : Word := BitVec.ofNat 16 (fontBase.val + 5 * d.val)

/-- `nnn + V[0]`, a natural number (R144). -/
def State.jumpTarget (s : State) (nnn : Addr12) : Nat := nnn.toNat + (s.getV 0).toNat

/-- Hundreds, tens, ones (R183). -/
def decimalDigits (v : Byte) : List Byte :=
  [BitVec.ofNat 8 (v.toNat / 100), BitVec.ofNat 8 (v.toNat / 10 % 10), BitVec.ofNat 8 (v.toNat % 10)]

/-- `V[0]` to `V[x]`, in order (R184). -/
def State.regsUpTo (s : State) (x : Reg) : List Byte := s.V.toList.take (x.val + 1)

/-- `V[i] <- t[i]` for every byte of a block, the other registers as they were (R185). -/
def State.setRegs (s : State) (t : List Byte) : State :=
  { s with V := Vector.ofFn fun i : Fin 16 => t.getD i.val (s.getV i) }

/-- `I` after a block transfer: unchanged, or `(I + x + 1) mod 65536` under `LOADSTORE_INCREMENT_I` (R184, R185). -/
def State.indexAfterBlock (s : State) (x : Reg) : Word :=
  if s.params.loadStoreIncrementI then BitVec.ofNat 16 (s.I.toNat + x.val + 1) else s.I

/-- The pixels of one sprite row: bit `7 - b` of the byte lands `b` columns to the right (R192). -/
def rowPixels (vx r : Nat) (byte : Byte) : List (Fin 32 × Fin 64) :=
  ((List.range 8).filter fun b => byte.getLsbD (7 - b)).map fun b => (Fin.ofNat 32 r, Fin.ofNat 64 (vx + b))

/-- The pixels a sprite's 1 bits land on, row by row from `(vx, vy)`, with wraparound (R191, R192). -/
def spritePixels (vx : Nat) : Nat → List Byte → List (Fin 32 × Fin 64)
  | _, [] => []
  | vy, byte :: rest => rowPixels vx vy byte ++ spritePixels vx (vy + 1) rest

end Sys2Proof.Machine
end

