-- ==== Sys2Proof/Machine/Alu.lean ====
section
/-! DEFINITION. The register load and ALU instructions (spec/43_alu.md). -/

namespace Sys2Proof.Machine

/-- `6xkk` LD Vx, kk (R160). -/
def execLdImm (x : Reg) (kk : Byte) (s : State) : Result := .next (s.advance (s.setV x kk))

/-- `7xkk` ADD Vx, kk: modulo 256, no flag (R161). -/
def execAddImm (x : Reg) (kk : Byte) (s : State) : Result := .next (s.advance (s.setV x (s.getV x + kk)))

/-- `8xy0` LD Vx, Vy (R162). -/
def execLdReg (x y : Reg) (s : State) : Result := .next (s.advance (s.setV x (s.getV y)))

/-- `8xy1` OR Vx, Vy (R163). -/
def execOrReg (x y : Reg) (s : State) : Result := .next (s.advance (s.setV x (s.getV x ||| s.getV y)))

/-- `8xy2` AND Vx, Vy (R164). -/
def execAndReg (x y : Reg) (s : State) : Result := .next (s.advance (s.setV x (s.getV x &&& s.getV y)))

/-- `8xy3` XOR Vx, Vy (R165). -/
def execXorReg (x y : Reg) (s : State) : Result := .next (s.advance (s.setV x (s.getV x ^^^ s.getV y)))

/-- `8xy4` ADD Vx, Vy (R166, R172). -/
def execAddReg (x y : Reg) (s : State) : Result :=
  .next (s.advance (s.writeFlagged x (addFlagged (s.getV x) (s.getV y))))

/-- `8xy5` SUB Vx, Vy (R167, R172). -/
def execSub (x y : Reg) (s : State) : Result :=
  .next (s.advance (s.writeFlagged x (subFlagged (s.getV x) (s.getV y))))

/-- `8xy6` SHR Vx, Vy: the source is `V[y]` (R168, R172). -/
def execShr (x y : Reg) (s : State) : Result := .next (s.advance (s.writeFlagged x (shrFlagged (s.getV y))))

/-- `8xy7` SUBN Vx, Vy: `V[y] - V[x]` (R169, R172). -/
def execSubn (x y : Reg) (s : State) : Result :=
  .next (s.advance (s.writeFlagged x (subFlagged (s.getV y) (s.getV x))))

/-- `8xyE` SHL Vx, Vy: the source is `V[y]` (R170, R172). -/
def execShl (x y : Reg) (s : State) : Result := .next (s.advance (s.writeFlagged x (shlFlagged (s.getV y))))

/-- `Cxkk` RND Vx, kk (R171). -/
def execRnd (x : Reg) (kk : Byte) (s : State) : Result := .next (s.advance (s.setV x (s.rnd &&& kk)))

end Sys2Proof.Machine
end

