-- ==== Sys2Proof/Machine/DisplayInstr.lean ====
section
/-! DEFINITION. The display instructions (spec/45_display.md). -/

namespace Sys2Proof.Machine

/-- `00E0` CLS (R190). -/
def execCls (s : State) : Result := .next (s.advance { s with disp := Display.blank })

/-- `Dxyn` DRW Vx, Vy, n: the sprite bytes, the XOR, then `VF` (R191, R192). -/
def execDrw (x y : Reg) (n : Fin 16) (s : State) : Result :=
  .next (s.advanceOr (match s.loadBytes s.I.toNat n.val with
    | .error e => .error e
    | .ok sprite =>
      let drawn := s.disp.draw false (spritePixels (s.getV x).toNat (s.getV y).toNat sprite)
      .ok { s.setV VF (flagByte drawn.2) with disp := drawn.1 }))

end Sys2Proof.Machine
end

