-- ==== Sys2Proof/Machine/Flow.lean ====
section
/-! DEFINITION. The control transfer instructions (spec/41_flow.md). -/

namespace Sys2Proof.Machine

/-- `00EE` RET: pop the stack into `pc` (R143). -/
def execRet (s : State) : Result :=
  if s.SP = 0 then .next (s.raise ⟨.stackUnderflow, 0⟩)
  else
    match s.pop with
    | none => .fault .noStackEntry
    | some (t, after) => .next (s.setPC t.toNat after)

/-- `0nnn` SYS: a no-operation, or SysTrap under `SYS_POLICY = fatal` (R140). -/
def execSys (nnn : Addr12) (s : State) : Result :=
  .next (match s.params.sysPolicy with
    | .nop => s.advance s
    | .fatal => s.raise ⟨.sysTrap, nnn.toNat⟩)

/-- `1nnn` JP nnn (R141). -/
def execJp (nnn : Addr12) (s : State) : Result := .next (s.setPC nnn.toNat s)

/-- `2nnn` CALL nnn: the checks in R142's order, then push the return address and go (R142, R214). -/
def execCall (nnn : Addr12) (s : State) : Result :=
  let ret := s.pc.toNat + 2
  if s.SP.toNat = Config.stackDepth then .next (s.raise ⟨.stackOverflow, s.SP.toNat⟩)
  else if 0xFFE < ret then .next (s.raise ⟨.badPC, ret⟩)
  else if nnn.toNat % 2 = 1 ∨ nnn.toNat < Config.programBase then .next (s.raise ⟨.badPC, nnn.toNat⟩)
  else
    match s.push (BitVec.ofNat 16 ret) with
    | none => .fault .noStackEntry
    | some after => .next (s.setPC nnn.toNat after)

/-- `Bnnn` JP V0, nnn: the sum is not reduced (R144). -/
def execJpV0 (nnn : Addr12) (s : State) : Result := .next (s.setPC (s.jumpTarget nnn) s)

end Sys2Proof.Machine
end

