-- ==== Sys2Proof/Machine/IndexMemory.lean ====
section
/-! DEFINITION. The address register and memory instructions (spec/44_index_memory.md). -/

namespace Sys2Proof.Machine

/-- `Annn` LD I, nnn (R180). -/
def execLdI (nnn : Addr12) (s : State) : Result := .next (s.advance { s with I := nnn.setWidth 16 })

/-- `Fx1E` ADD I, Vx: modulo 65536, no flag (R181). -/
def execAddI (x : Reg) (s : State) : Result := .next (s.advance { s with I := s.I + (s.getV x).setWidth 16 })

/-- `Fx29` LD F, Vx: the glyph of the low 4 bits (R182). -/
def execLdF (x : Reg) (s : State) : Result :=
  .next (s.advance { s with I := glyphAddress s.params.fontBase (lowNibble (s.getV x)) })

/-- `Fx33` LD B, Vx: hundreds, tens, ones at `I`, `I + 1`, `I + 2` (R183). -/
def execLdB (x : Reg) (s : State) : Result :=
  .next (s.advanceOr (s.storeBytes s.I.toNat (decimalDigits (s.getV x))))

/-- `Fx55` LD [I], Vx: store `V[0]` to `V[x]` (R184). -/
def execStoreRegs (x : Reg) (s : State) : Result :=
  .next (s.advanceOr (match s.storeBytes s.I.toNat (s.regsUpTo x) with
    | .error e => .error e
    | .ok after => .ok { after with I := s.indexAfterBlock x }))

/-- `Fx65` LD Vx, [I]: load `V[0]` to `V[x]` (R185). -/
def execLoadRegs (x : Reg) (s : State) : Result :=
  .next (s.advanceOr (match s.loadBytes s.I.toNat (x.val + 1) with
    | .error e => .error e
    | .ok t => .ok { s.setRegs t with I := s.indexAfterBlock x }))

end Sys2Proof.Machine
end

