-- ==== Sys2Proof/Machine/Skips.lean ====
section
/-! DEFINITION. The conditional skip instructions (spec/42_skips.md). Each closes as its pseudocode does; the Faults lines
differ from that in one info value, at `pc = 0xFFE` (log 14). -/

namespace Sys2Proof.Machine

/-- `3xkk` SE Vx, kk (R150). -/
def execSeImm (x : Reg) (kk : Byte) (s : State) : Result := .next (s.skipIf (s.getV x == kk))

/-- `4xkk` SNE Vx, kk (R151). -/
def execSneImm (x : Reg) (kk : Byte) (s : State) : Result := .next (s.skipIf (s.getV x != kk))

/-- `5xy0` SE Vx, Vy (R152). -/
def execSeReg (x y : Reg) (s : State) : Result := .next (s.skipIf (s.getV x == s.getV y))

/-- `9xy0` SNE Vx, Vy (R153). -/
def execSneReg (x y : Reg) (s : State) : Result := .next (s.skipIf (s.getV x != s.getV y))

/-- `Ex9E` SKP Vx (R154). -/
def execSkp (x : Reg) (s : State) : Result := .next (s.skipIf (s.keyDown x))

/-- `ExA1` SKNP Vx (R155). -/
def execSknp (x : Reg) (s : State) : Result := .next (s.skipIf (!s.keyDown x))

end Sys2Proof.Machine
end

