-- ==== Sys2Proof/Machine/TimersKeys.lean ====
section
/-! DEFINITION. The timer and key-wait instructions (spec/46_timers_keys.md). -/

namespace Sys2Proof.Machine

/-- `Fx07` LD Vx, DT (R200). -/
def execLdVxDT (x : Reg) (s : State) : Result := .next (s.advance (s.setV x s.DT))

/-- `Fx0A` LD Vx, K: begin a key wait; `pc` is not written, and SupplyKey ends the wait (R201, R116). -/
def execLdVxK (x : Reg) (s : State) : Result := .next { s with waitX := x, run := .waitingForKey }

/-- `Fx15` LD DT, Vx (R202). -/
def execLdDTVx (x : Reg) (s : State) : Result := .next (s.advance { s with DT := s.getV x })

/-- `Fx18` LD ST, Vx (R203). -/
def execLdSTVx (x : Reg) (s : State) : Result := .next (s.advance { s with ST := s.getV x })

end Sys2Proof.Machine
end

