-- ==== Sys2Proof/Machine/Cycle.lean ====
section
/-! DEFINITION. The event Step around the instructions, the four events together, and what each tells the host
(spec/40_execution_cycle.md R110 to R121). -/

namespace Sys2Proof.Machine

/-- Fetch: the word at `pc` (R111 step 2). -/
def fetch (s : State) : Except Raised Word := s.readWord s.pc.toNat

/-- The event `Step`: nothing unless running; fetch, decode, execute, each of which can raise (R111, R114). The inputs
are what the schedule said, or free ones (R118; log 2). -/
def stepEvent (inp : Option Inputs) (s : State) : Result :=
  match s.run with
  | .waitingForKey => .next s
  | .halted => .next s
  | .running =>
    match fetch s with
    | .error e => .next (s.raise e)
    | .ok w =>
      match decode w with
      | .error _ => .next (s.raise ⟨.unknownOpcode, w.toNat⟩)
      | .ok i => exec i (s.present inp)

/-- One event of the host (R5, R110). -/
def applyEvent (e : Event) (s : State) : Result :=
  match e with
  | .step keys rnd => stepEvent (some ⟨keys, rnd⟩) s
  | .tick => .next s.tick
  | .supplyKey k => .next (s.supplyKey k)
  | .load bytes => .next (s.load bytes)

/-- The next event: the first of the schedule, or a Step with free inputs where the schedule is empty (R117; log 1). -/
def nextEvent (s : State) : Result :=
  match s.schedule with
  | [] => stepEvent none s
  | e :: rest => applyEvent e { s with schedule := rest }

/-- What an event returns to the host (R110, R256). -/
inductive EventResult where
  | ok
  | faulted (r : FaultRecord)
  | programTooLarge
  deriving DecidableEq, Repr

/-- The fault record when the machine is halted, else Ok (R111 step 1, R212). -/
def State.haltResult (s : State) : EventResult :=
  match s.run with
  | .halted => .faulted s.fault
  | .running => .ok
  | .waitingForKey => .ok

/-- The result of one event, where it leaves a next state (R110, R212, R225, R256). -/
def eventResult (e : Event) (s : State) : Option EventResult :=
  match e with
  | .step keys rnd =>
    match stepEvent (some ⟨keys, rnd⟩) s with
    | .next t => some t.haltResult
    | .fault _ => none
    | .refused _ => none
  | .tick => some .ok
  | .supplyKey k =>
    match s.run with
    | .waitingForKey => some (s.supplyKey k).haltResult
    | .running => some .ok
    | .halted => some .ok
  | .load bytes => some (if loadAccepted bytes then .ok else .programTooLarge)

end Sys2Proof.Machine
end

