-- ==== Sys2Proof/Machine/Step.lean ====
section
/-! DEFINITION. One step of the machine: its next event (spec/00_scope.md R5, spec/40_execution_cycle.md R110, R117). -/

namespace Sys2Proof.Machine

/-- The machine's next event (R110; log 1). -/
def step (s : State) : Host.Outcome State Fault Refusal := nextEvent s

/-- The state with an instruction, numbered as spec/opcode_table.json numbers its bits, standing where the next Step
fetches, and that Step next (log 3). -/
def State.withFetchWord (s : State) (nbits w : Nat) : State := s.placeWord (BitVec.ofNat 16 (w % 2 ^ nbits))

end Sys2Proof.Machine
end

