-- ==== Sys2Proof/Safety.lean ====
section
/-! DEFINITION. The terms claims are made in: when an instruction can close, the invariant of every reachable state
(spec/10_state.md R35), who writes what (R36), which pixels a sprite covers (R192), what ends a run (R120),
the premises a claim about a program may need (R257). -/

namespace Sys2Proof.Machine

/-! ### When an instruction can close (R112, R113) -/

/-- `pc + 2` is a value `pc` may hold. -/
abbrev State.CanAdvance (s : State) : Prop :=
  s.pc.toNat % 2 = 0 ∧ 0x200 ≤ s.pc.toNat + 2 ∧ s.pc.toNat + 2 ≤ 0xFFE

/-- `pc + 4` is a value `pc` may hold. -/
abbrev State.CanSkip (s : State) : Prop :=
  s.pc.toNat % 2 = 0 ∧ 0x200 ≤ s.pc.toNat + 4 ∧ s.pc.toNat + 4 ≤ 0xFFE

/-- `t` is a value `pc` may hold (R22). -/
abbrev PcValue (t : Nat) : Prop := t % 2 = 0 ∧ 0x200 ≤ t ∧ t ≤ 0xFFE

/-! ### The invariant of R35 -/

/-- R35 (a). -/
abbrev State.PcLegal (s : State) : Prop := PcValue s.pc.toNat

/-- R35 (b). -/
abbrev State.SpBounded (s : State) : Prop := s.SP.toNat ≤ Config.stackDepth

/-- R35 (c). -/
abbrev State.StackLegal (s : State) : Prop :=
  ∀ j : Fin Config.stackDepth, j.val < s.SP.toNat →
    s.stack[j.val].toNat % 2 = 0 ∧ 0x202 ≤ s.stack[j.val].toNat ∧ s.stack[j.val].toNat ≤ 0xFFE

/-- R35 (d): the reserved region holds its contents after Load. -/
abbrev State.ReservedConstant (s : State) : Prop :=
  ∀ a < 0x200, s.readByte a = unlisted s.params.fontBase a

/-- R35 (e). -/
abbrev State.FaultMatchesRun (s : State) : Prop := s.run = .halted ↔ s.fault.cause ≠ .none

/-- R35 (f): the word at `pc` is the `Fx0A` whose `x` is `wait_x`. -/
abbrev State.WaitMatchesWord (s : State) : Prop :=
  s.run = .waitingForKey → s.readWord s.pc.toNat = .ok (encode (.ldVxK s.waitX))

/-- The canonical form of memory (log 8). -/
abbrev State.MemoryCanonical (s : State) : Prop := Memory.wf s.params.fontBase s.mem

/-- The invariant of R35, with the canonical form of memory. -/
structure State.Inv (s : State) : Prop where
  pcLegal : s.PcLegal
  spBounded : s.SpBounded
  stackLegal : s.StackLegal
  reservedConstant : s.ReservedConstant
  faultMatchesRun : s.FaultMatchesRun
  waitMatchesWord : s.WaitMatchesWord
  memoryCanonical : s.MemoryCanonical

/-! ### Who writes what (R21, R36) -/

/-- The registers an instruction may write: its destination, and `VF` for the flag writers of R21. -/
def writesReg (i : Instr) (r : Reg) : Prop :=
  match i with
  | .ldImm x _ => r = x
  | .addImm x _ => r = x
  | .ldReg x _ => r = x
  | .orReg x _ => r = x
  | .andReg x _ => r = x
  | .xorReg x _ => r = x
  | .addReg x _ => r = x ∨ r = VF
  | .sub x _ => r = x ∨ r = VF
  | .shr x _ => r = x ∨ r = VF
  | .subn x _ => r = x ∨ r = VF
  | .shl x _ => r = x ∨ r = VF
  | .rnd x _ => r = x
  | .drw _ _ _ => r = VF
  | .ldVxDT x => r = x
  | .loadRegs x => r.val ≤ x.val
  | .cls => False
  | .ret => False
  | .sys _ => False
  | .jp _ => False
  | .call _ => False
  | .seImm _ _ => False
  | .sneImm _ _ => False
  | .seReg _ _ => False
  | .sneReg _ _ => False
  | .ldI _ => False
  | .jpV0 _ => False
  | .skp _ => False
  | .sknp _ => False
  | .ldVxK _ => False
  | .ldDTVx _ => False
  | .ldSTVx _ => False
  | .addI _ => False
  | .ldF _ => False
  | .ldB _ => False
  | .storeRegs _ => False

/-- The addresses an instruction stores to, begun in `s`: three bytes at `I` for LD B, `x + 1` bytes at `I` for LD [I]
(R56, R183, R184). -/
def storesTo (i : Instr) (s : State) (a : Nat) : Prop :=
  (∃ x, i = .ldB x ∧ s.I.toNat ≤ a ∧ a ≤ s.I.toNat + 2) ∨
  (∃ x, i = .storeRegs x ∧ s.I.toNat ≤ a ∧ a ≤ s.I.toNat + x.val)

/-- The instructions that write `I` (R36). -/
def writesIndex (i : Instr) (s : State) : Prop :=
  (∃ nnn, i = .ldI nnn) ∨ (∃ x, i = .addI x) ∨ (∃ x, i = .ldF x) ∨
  (((∃ x, i = .storeRegs x) ∨ (∃ x, i = .loadRegs x)) ∧ s.params.loadStoreIncrementI = true)

/-- The instructions that read an input of the Step (R118). -/
def readsInput (i : Instr) : Prop := (∃ x, i = .skp x) ∨ (∃ x, i = .sknp x) ∨ (∃ x kk, i = .rnd x kk)

/-! ### Sprites (R191, R192) -/

/-- A 1 bit of the sprite lands on row `r`, column `c`: bit `7 - b` of byte `j`, drawn from `(V[x], V[y])`. -/
def Covers (s : State) (x y : Reg) (n : Fin 16) (r : Fin 32) (c : Fin 64) : Prop :=
  ∃ j < n.val, ∃ b < 8, (s.readByte (s.I.toNat + j)).getLsbD (7 - b) = true ∧
    r.val = ((s.getV y).toNat + j) % 32 ∧ c.val = ((s.getV x).toNat + b) % 64

/-! ### How an instruction closes (R112) -/

/-- The instructions whose rule has no check of its own and closes by `Advance()`, and SYS under the default policy. -/
def plainAdvance (i : Instr) : Prop :=
  match i with
  | .cls => True
  | .sys _ => True
  | .ldImm _ _ => True
  | .addImm _ _ => True
  | .ldReg _ _ => True
  | .orReg _ _ => True
  | .andReg _ _ => True
  | .xorReg _ _ => True
  | .addReg _ _ => True
  | .sub _ _ => True
  | .shr _ _ => True
  | .subn _ _ => True
  | .shl _ _ => True
  | .ldI _ => True
  | .rnd _ _ => True
  | .ldVxDT _ => True
  | .ldDTVx _ => True
  | .ldSTVx _ => True
  | .addI _ => True
  | .ldF _ => True
  | .ret => False
  | .jp _ => False
  | .call _ => False
  | .seImm _ _ => False
  | .sneImm _ _ => False
  | .seReg _ _ => False
  | .sneReg _ _ => False
  | .jpV0 _ => False
  | .drw _ _ _ => False
  | .skp _ => False
  | .sknp _ => False
  | .ldVxK _ => False
  | .ldB _ => False
  | .storeRegs _ => False
  | .loadRegs _ => False

/-! ### Faults -/

/-- The machine halted with this fault and nothing else changed from `s` (R212, R213). -/
def HaltedBy (s t : State) (cause : Cause) (info : Nat) : Prop :=
  t = { s with
    run := .halted
    fault := { cause := cause, pc := s.pc, word := s.wordAtPc, info := BitVec.ofNat 17 info } }

/-- The machine's own state, without the model's fields that carry what the host chooses (log 1, log 2). -/
def State.machine (s : State) : State := { s with schedule := [], input := none, draws := 0 }

/-- A state with no fault: a claim about a program takes this as a premise (R257). -/
abbrev State.NoFault (s : State) : Prop := s.fault.cause = .none

/-- The launch premise `Loaded(P)`: the machine as a successful Load of the bytes leaves it, for its parameters (R250,
R257). -/
def State.Loaded (s : State) (bytes : List Byte) : Prop :=
  bytes.length ≤ Config.maxProgram ∧ s.machine = ((State.resetWith s.params).load bytes).machine

/-- The launch premise `NoReload` for the events a state holds: no Load is to come (R257). -/
abbrev State.NoReload (s : State) : Prop := ∀ e ∈ s.schedule, ∀ bytes, e ≠ .load bytes

/-- A run is over: running, and the word at `pc` jumps to `pc` (R120). -/
abbrev State.RunOver (s : State) : Prop :=
  s.run = .running ∧ s.readWord s.pc.toNat = .ok (BitVec.ofNat 16 (0x1000 + s.pc.toNat)) ∧ s.PcLegal

/-! ### The host's endless sequence of events (R117, R254, R257) -/

/-- The state after the first `n` events of a host that hands the machine one event at a time, each with the inputs it
presents; nothing where a step answers no next state. -/
def State.afterEvents (s : State) (host : Nat → Event) : Nat → Option State
  | 0 => some s
  | n + 1 =>
    match s.afterEvents host n with
    | none => none
    | some t =>
      match step { t with schedule := [host n] } with
      | .next u => some u
      | .fault _ => none
      | .refused _ => none

/-- The premise `TicksFair`: infinitely many Tick events (R254 (b), R257). -/
def TicksFair (host : Nat → Event) : Prop := ∀ n, ∃ m, n ≤ m ∧ host m = .tick

/-- The premise `KeySupplied`: wherever the machine waits for a key, a SupplyKey is still to come (R254 (d), R257). -/
def State.KeySupplied (s : State) (host : Nat → Event) : Prop :=
  ∀ n t, s.afterEvents host n = some t → t.run = .waitingForKey → ∃ m k, n ≤ m ∧ host m = .supplyKey k

/-- The premise `NoReload` for the host's endless sequence: it holds no Load (R257). -/
def NoReload (host : Nat → Event) : Prop := ∀ n bytes, host n ≠ .load bytes

end Sys2Proof.Machine
end

