-- ==== Sys2Proof/Certificates/Slice0/Obligations.lean ====
section
/-! DEFINITION. The statements for the provers. Each says which sentences of spec/ it formalises; "D<n>" is a decision of
spec/92_eei_decisions.md, which the spec marks as its own. -/

open Sys2Proof Sys2Proof.Machine

/-! ### Decoding (spec/30_encoding.md) -/

/-- Words written out from the patterns of R85 and the vectors of 95_test_vectors.md decode to what they stand for. -/
def Obligations.SampleWordsDecode : Prop :=
  decode 0x00E0 = .ok .cls ∧ decode 0x00EE = .ok .ret ∧ decode 0x0123 = .ok (.sys 0x123) ∧
  decode 0x2300 = .ok (.call 0x300) ∧ decode 0x4343 = .ok (.sneImm 3 0x43) ∧ decode 0x5120 = .ok (.seReg 1 2) ∧
  decode 0x6A05 = .ok (.ldImm 0xA 0x05) ∧ decode 0x8124 = .ok (.addReg 1 2) ∧ decode 0x812E = .ok (.shl 1 2) ∧
  decode 0xA123 = .ok (.ldI 0x123) ∧ decode 0xD12A = .ok (.drw 1 2 10) ∧ decode 0xE5A1 = .ok (.sknp 5) ∧
  decode 0xF50A = .ok (.ldVxK 5) ∧ decode 0xF255 = .ok (.storeRegs 2) ∧ decode 0xF265 = .ok (.loadRegs 2) ∧
  decode 0x5121 = .error (.unknownOpcode 0x5121) ∧ decode 0xF000 = .error (.unknownOpcode 0xF000)

/-- R81: the six fields are the bits 15-12, 11-8, 7-4, 3-0, 7-0 and 11-0 of the word, they overlap as R81 says, and the
two bytes of the word in memory are `u ++ x` and `kk`. -/
def Obligations.FieldsAreBitSlices : Prop :=
  ∀ w : Word,
    (fieldU w).val = w.toNat / 2 ^ 12 ∧ (fieldX w).val = w.toNat / 2 ^ 8 % 2 ^ 4 ∧
    (fieldY w).val = w.toNat / 2 ^ 4 % 2 ^ 4 ∧ (fieldN w).val = w.toNat % 2 ^ 4 ∧
    (fieldKK w).toNat = w.toNat % 2 ^ 8 ∧ (fieldNNN w).toNat = w.toNat % 2 ^ 12 ∧
    (fieldKK w).toNat = (fieldY w).val * 16 + (fieldN w).val ∧
    (fieldNNN w).toNat = (fieldX w).val * 256 + (fieldY w).val * 16 + (fieldN w).val ∧
    ∃ hi lo : Byte, bytesOfWord w = [hi, lo] ∧ hi.toNat = (fieldU w).val * 16 + (fieldX w).val ∧ lo = fieldKK w ∧
      wordOfBytes hi lo = w

/-- Decoding the encoding of a well-formed instruction gives the instruction back, with every operand at every value
(R85, R89, R92). -/
def Obligations.DecodeInvertsEncode : Prop := ∀ i : Instr, i.wellFormed = true → decode (encode i) = .ok i

/-- A word that decodes is the encoding of a well-formed instruction: no bit of it is dropped (R81, R91). -/
def Obligations.EncodeInvertsDecode : Prop :=
  ∀ (w : Word) (i : Instr), decode w = .ok i → encode i = w ∧ i.wellFormed = true

/-- Two rows of the opcode map match one word only in class 0, where the later one is `0nnn` (R84, a remark the spec
derives; D38). Row 2 of the list is SYS, rows 0 and 1 are CLS and RET. -/
def Obligations.OpcodeRowsOverlapOnlyInClassZero : Prop :=
  ∀ (w : Word) (j k : Fin opcodeTable.length), j < k →
    opcodeTable[j].matchesWord w = true → opcodeTable[k].matchesWord w = true →
    k.val = 2 ∧ (w = 0x00E0 ∨ w = 0x00EE)

/-- The words that match nothing are those of R86's table (D37), and every class-0 word but `00E0` and `00EE` is SYS
(R87). -/
def Obligations.UnmatchedWordsAreUnknown : Prop :=
  ∀ w : Word,
    (decode w = .error (.unknownOpcode w) ↔
      ((fieldU w = 5 ∨ fieldU w = 9) ∧ fieldN w ≠ 0) ∨
      (fieldU w = 8 ∧ (fieldN w = 8 ∨ fieldN w = 9 ∨ fieldN w = 0xA ∨ fieldN w = 0xB ∨ fieldN w = 0xC ∨
        fieldN w = 0xD ∨ fieldN w = 0xF)) ∨
      (fieldU w = 0xE ∧ fieldKK w ≠ 0x9E ∧ fieldKK w ≠ 0xA1) ∨
      (fieldU w = 0xF ∧ fieldKK w ≠ 0x07 ∧ fieldKK w ≠ 0x0A ∧ fieldKK w ≠ 0x15 ∧ fieldKK w ≠ 0x18 ∧
        fieldKK w ≠ 0x1E ∧ fieldKK w ≠ 0x29 ∧ fieldKK w ≠ 0x33 ∧ fieldKK w ≠ 0x55 ∧ fieldKK w ≠ 0x65)) ∧
    (fieldU w = 0 → w ≠ 0x00E0 → w ≠ 0x00EE → decode w = .ok (.sys (fieldNNN w)))

/-! ### Memory and faults (spec/20_memory.md, 60_exceptions.md) -/

/-- R52: what `MemRead` answers for one byte and for a word, with its example. -/
def Obligations.MemReadAnswersByteOrWord : Prop :=
  ∀ (s : State) (a : Nat),
    (4096 ≤ a → s.read8 a = .error ⟨.outOfRange, max a 4096⟩) ∧
    (a < 4096 → s.read8 a = .ok (s.readByte a)) ∧
    (4096 ≤ a + 1 → s.readWord a = .error ⟨.outOfRange, max a 4096⟩) ∧
    (a + 1 < 4096 → ∃ w, s.readWord a = .ok w ∧
      w.toNat = 256 * (s.readByte a).toNat + (s.readByte (a + 1)).toNat) ∧
    (s.readByte 0x200 = 0x6A → s.readByte 0x201 = 0x05 → s.readWord 0x200 = .ok 0x6A05) ∧
    s.readWord 0xFFF = .error ⟨.outOfRange, 0x1000⟩

/-- `MemWrite`: OutOfRange, then ReservedWrite (D8), else exactly one byte of memory changes and nothing else (R53). -/
def Obligations.MemWriteChangesOneByte : Prop :=
  ∀ (s : State) (a : Nat) (v : Byte),
    (4096 ≤ a → s.write8 a v = .error ⟨.outOfRange, a⟩) ∧
    (a < 0x200 → s.write8 a v = .error ⟨.reservedWrite, a⟩) ∧
    (0x200 ≤ a → a < 4096 → ∃ t, s.write8 a v = .ok t ∧ t = { s with mem := t.mem } ∧
      ∀ b, t.readByte b = if b = a then v else s.readByte b)

/-- Fault entry (R212): the record is written, the machine halts, nothing else changes, and the result to the host is the
fault. The record's fields are the spec's decision D6; that `fault.word` is the word at `pc` read again, and 0 where that
read fails, is the model's reading of R212's "fetched word" (log 5, DEDUCED). -/
def Obligations.FaultEntryWritesRecordOnly : Prop :=
  ∀ (s : State) (e : Raised), e.info < 2 ^ 17 →
    (s.raise e).run = .halted ∧ (s.raise e).fault.cause = e.cause ∧ (s.raise e).fault.pc = s.pc ∧
    (∀ w, s.readWord s.pc.toNat = .ok w → (s.raise e).fault.word = w) ∧
    (∀ r, s.readWord s.pc.toNat = .error r → (s.raise e).fault.word = 0) ∧
    (s.raise e).fault.info.toNat = e.info ∧
    s.raise e = { s with run := .halted, fault := (s.raise e).fault } ∧
    (s.raise e).haltResult = .faulted (s.raise e).fault

/-! ### Control transfer (spec/41_flow.md) -/

/-- SYS advances and does nothing else, or raises SysTrap under the alternative policy (R140, D17). -/
def Obligations.SysAdvancesOrTraps : Prop :=
  ∀ (nnn : Addr12) (s : State),
    (s.params.sysPolicy = .nop → s.CanAdvance → exec (.sys nnn) s = .next { s with pc := s.pc + 2 }) ∧
    (s.params.sysPolicy = .fatal → ∃ t, exec (.sys nnn) s = .next t ∧ HaltedBy s t .sysTrap nnn.toNat)

/-- JP takes a legal target, whatever its own address is, and raises BadPC on any other (R141, D7). -/
def Obligations.JpSetsPcOrFaults : Prop :=
  ∀ (nnn : Addr12) (s : State),
    (PcValue nnn.toNat → exec (.jp nnn) s = .next { s with pc := nnn.setWidth 16 }) ∧
    (¬ PcValue nnn.toNat → ∃ t, exec (.jp nnn) s = .next t ∧ HaltedBy s t .badPC nnn.toNat)

/-- CALL pushes the address of the next instruction and goes to the target (R142). -/
def Obligations.CallPushesReturnAddress : Prop :=
  ∀ (nnn : Addr12) (s : State) (h : s.SP.toNat < Config.stackDepth), s.pc.toNat + 2 ≤ 0xFFE → PcValue nnn.toNat →
    exec (.call nnn) s =
      .next { s with stack := s.stack.set s.SP.toNat (s.pc + 2) h, SP := s.SP + 1, pc := nnn.setWidth 16 }

/-- CALL's faults in their order: a full stack, the return address, the target; none changes the stack (R142, R214, D7,
D25, D27). -/
def Obligations.CallFaultsInOrder : Prop :=
  ∀ (nnn : Addr12) (s : State),
    (s.SP = 16 → ∃ t, exec (.call nnn) s = .next t ∧ HaltedBy s t .stackOverflow 16) ∧
    (s.SP ≠ 16 → 0xFFE < s.pc.toNat + 2 →
      ∃ t, exec (.call nnn) s = .next t ∧ HaltedBy s t .badPC (s.pc.toNat + 2)) ∧
    (s.SP ≠ 16 → s.pc.toNat + 2 ≤ 0xFFE → ¬ PcValue nnn.toNat →
      ∃ t, exec (.call nnn) s = .next t ∧ HaltedBy s t .badPC nnn.toNat)

/-- RET pops the stack into `pc`, and raises StackUnderflow on an empty stack; an entry that no CALL stored is refused by
SetPC (R143, D7). -/
def Obligations.RetPopsIntoPc : Prop :=
  ∀ (s : State),
    (s.SP = 0 → ∃ t, exec .ret s = .next t ∧ HaltedBy s t .stackUnderflow 0) ∧
    (∀ h : s.SP.toNat - 1 < Config.stackDepth, s.SP ≠ 0 → PcValue s.stack[s.SP.toNat - 1].toNat →
      exec .ret s = .next { s with SP := s.SP - 1, pc := s.stack[s.SP.toNat - 1] }) ∧
    (∀ h : s.SP.toNat - 1 < Config.stackDepth, s.SP ≠ 0 → ¬ PcValue s.stack[s.SP.toNat - 1].toNat →
      ∃ t, exec .ret s = .next t ∧ HaltedBy s t .badPC s.stack[s.SP.toNat - 1].toNat)

/-- A call and the return that follows it come back behind the call with the depth, the older entries and everything else
as before (R142, R143). -/
def Obligations.CallThenRetReturns : Prop :=
  ∀ (nnn : Addr12) (s : State), s.SP.toNat < Config.stackDepth → s.CanAdvance → PcValue nnn.toNat →
    ∃ t u, exec (.call nnn) s = .next t ∧ exec .ret t = .next u ∧
      u = { s with pc := s.pc + 2, stack := u.stack } ∧
      ∀ j : Fin Config.stackDepth, j.val ≠ s.SP.toNat → u.stack[j.val] = s.stack[j.val]

/-- The one stop of the model (log 6): a stack pointer above the depth, which R24 says never occurs, names an entry that
does not exist, and CALL and RET stop there by name. -/
def Obligations.StackPointerBeyondDepthStops : Prop :=
  ∀ (nnn : Addr12) (s : State), Config.stackDepth < s.SP.toNat →
    (s.pc.toNat + 2 ≤ 0xFFE → PcValue nnn.toNat → exec (.call nnn) s = .fault .noStackEntry) ∧
    exec .ret s = .fault .noStackEntry

/-- JP V0 goes to `nnn + V[0]`, not reduced to 12 bits, or raises BadPC on that sum (R144, D7, D14). -/
def Obligations.JpV0AddsUnmasked : Prop :=
  ∀ (nnn : Addr12) (s : State),
    (PcValue (nnn.toNat + (s.getV 0).toNat) →
      ∃ t, exec (.jpV0 nnn) s = .next t ∧ t.pc.toNat = nnn.toNat + (s.getV 0).toNat ∧ t = { s with pc := t.pc }) ∧
    (¬ PcValue (nnn.toNat + (s.getV 0).toNat) →
      ∃ t, exec (.jpV0 nnn) s = .next t ∧ HaltedBy s t .badPC (nnn.toNat + (s.getV 0).toNat))

/-! ### Skips (spec/42_skips.md) -/

/-- What a conditional skip does: `pc + 4` when the condition holds, `pc + 2` otherwise, nothing else (R112). -/
def SkipsOn (i : Instr) (s : State) (c : Prop) : Prop :=
  (c → s.CanSkip → exec i s = .next { s with pc := s.pc + 4 }) ∧
  (¬ c → s.CanAdvance → exec i s = .next { s with pc := s.pc + 2 })

/-- The four register skips: SE and SNE with an immediate and with a register (R150 to R153; the conditions are D32). -/
def Obligations.RegisterSkipsOnCondition : Prop :=
  ∀ (x y : Reg) (kk : Byte) (s : State),
    SkipsOn (.seImm x kk) s (s.getV x = kk) ∧ SkipsOn (.sneImm x kk) s (s.getV x ≠ kk) ∧
    SkipsOn (.seReg x y) s (s.getV x = s.getV y) ∧ SkipsOn (.sneReg x y) s (s.getV x ≠ s.getV y)

/-- The two key skips: the level of the key that the low 4 bits of `V[x]` name (R154, R155; D9, D32). -/
def Obligations.KeySkipsOnLevel : Prop :=
  ∀ (x : Reg) (s : State),
    SkipsOn (.skp x) s (s.keys.getLsbD ((s.getV x).toNat % 16) = true) ∧
    SkipsOn (.sknp x) s (s.keys.getLsbD ((s.getV x).toNat % 16) = false)

/-- How a conditional skip faults at the top of memory: the refused target is the info, `0x1000` or `0x1002` (R113's cases,
vector K21). R150's Faults line, which says `0x1000` at `0xFFE` either way, is not followed (log 14, DESIGN CHOICE). -/
def SkipFaultsAtTop (i : Instr) (s : State) (c : Prop) : Prop :=
  (s.pc = 0xFFC → c → ∃ t, exec i s = .next t ∧ HaltedBy s t .badPC 0x1000) ∧
  (s.pc = 0xFFE → c → ∃ t, exec i s = .next t ∧ HaltedBy s t .badPC 0x1002) ∧
  (s.pc = 0xFFE → ¬ c → ∃ t, exec i s = .next t ∧ HaltedBy s t .badPC 0x1000)

/-- All six skips fault at the top of memory as R113 and vectors K19 to K22 say, with nothing changed but the fault (D5,
D7). For a skip taken at `0xFFE` R150's Faults line says another info value and is not followed (log 14). -/
def Obligations.SkipsFaultAtTop : Prop :=
  ∀ (x y : Reg) (kk : Byte) (s : State),
    SkipFaultsAtTop (.seImm x kk) s (s.getV x = kk) ∧ SkipFaultsAtTop (.sneImm x kk) s (s.getV x ≠ kk) ∧
    SkipFaultsAtTop (.seReg x y) s (s.getV x = s.getV y) ∧ SkipFaultsAtTop (.sneReg x y) s (s.getV x ≠ s.getV y) ∧
    SkipFaultsAtTop (.skp x) s (s.keys.getLsbD ((s.getV x).toNat % 16) = true) ∧
    SkipFaultsAtTop (.sknp x) s (s.keys.getLsbD ((s.getV x).toNat % 16) = false)

/-! ### Register loads and ALU (spec/43_alu.md, 46_timers_keys.md) -/

/-- `V[x]` takes a value, `pc` advances, and nothing else changes. -/
def WritesRegister (i : Instr) (s : State) (x : Reg) (v : Byte) : Prop :=
  ∃ t, exec i s = .next t ∧ t.getV x = v ∧ (∀ r, r ≠ x → t.getV r = s.getV r) ∧
    t = { s with V := t.V, pc := s.pc + 2 }

/-- LD Vx, kk; LD Vx, Vy; LD Vx, DT and RND: the destination takes the immediate, `V[y]`, the delay timer, the random
byte under the mask (R160, R162, R200, R171). -/
def Obligations.LoadsWriteDestination : Prop :=
  ∀ (x y : Reg) (kk : Byte) (s : State), s.CanAdvance →
    WritesRegister (.ldImm x kk) s x kk ∧ WritesRegister (.ldReg x y) s x (s.getV y) ∧
    WritesRegister (.ldVxDT x) s x s.DT ∧ WritesRegister (.rnd x kk) s x (s.rnd &&& kk)

/-- ADD Vx, kk adds modulo 256 and writes no flag (R161, D39). -/
def Obligations.AddImmWrapsWithoutFlag : Prop :=
  ∀ (x : Reg) (kk : Byte) (s : State), s.CanAdvance →
    ∃ v : Byte, v.toNat = ((s.getV x).toNat + kk.toNat) % 256 ∧ WritesRegister (.addImm x kk) s x v

/-- OR, AND and XOR act on the 8 bit positions independently and leave `VF` alone (R163 to R165, R173, D12). -/
def Obligations.BitwiseActsBitByBit : Prop :=
  ∀ (x y : Reg) (s : State), s.CanAdvance →
    (∃ v : Byte, (∀ k < 8, v.getLsbD k = ((s.getV x).getLsbD k || (s.getV y).getLsbD k)) ∧
      WritesRegister (.orReg x y) s x v) ∧
    (∃ v : Byte, (∀ k < 8, v.getLsbD k = ((s.getV x).getLsbD k && (s.getV y).getLsbD k)) ∧
      WritesRegister (.andReg x y) s x v) ∧
    (∃ v : Byte, (∀ k < 8, v.getLsbD k = ((s.getV x).getLsbD k != (s.getV y).getLsbD k)) ∧
      WritesRegister (.xorReg x y) s x v)

/-- A flag-writing instruction leaves a result in `V[x]`, a flag in `VF` where `x` is another register, `pc` advanced and
nothing else changed (R172; with `x = F` the result survives, D11). -/
def WritesResultAndFlag (i : Instr) (s : State) (x : Reg) (result : Nat) (flag : Nat) : Prop :=
  ∃ t, exec i s = .next t ∧ (t.getV x).toNat = result ∧ (x ≠ VF → (t.getV VF).toNat = flag) ∧
    (∀ r, r ≠ x → r ≠ VF → t.getV r = s.getV r) ∧ t = { s with V := t.V, pc := s.pc + 2 }

/-- ADD Vx, Vy: the sum modulo 256 and the carry, from the old operands (R166, R172, R173). -/
def Obligations.AddRegSumAndCarry : Prop :=
  ∀ (x y : Reg) (s : State), s.CanAdvance →
    WritesResultAndFlag (.addReg x y) s x (((s.getV x).toNat + (s.getV y).toNat) % 256)
      (if 255 < (s.getV x).toNat + (s.getV y).toNat then 1 else 0)

/-- SUB and SUBN: the difference modulo 256 and the not-borrow, from the old operands (R167, R169, R172, R173). -/
def Obligations.SubtractionsDifferenceAndNotBorrow : Prop :=
  ∀ (x y : Reg) (s : State), s.CanAdvance →
    WritesResultAndFlag (.sub x y) s x (((s.getV x).toNat + 256 - (s.getV y).toNat) % 256)
      (if (s.getV y).toNat ≤ (s.getV x).toNat then 1 else 0) ∧
    WritesResultAndFlag (.subn x y) s x (((s.getV y).toNat + 256 - (s.getV x).toNat) % 256)
      (if (s.getV x).toNat ≤ (s.getV y).toNat then 1 else 0)

/-- SHR and SHL shift `V[y]` by one into `V[x]`; `VF` takes the bit shifted out (R168, R170, R172, R173). -/
def Obligations.ShiftsReadVy : Prop :=
  ∀ (x y : Reg) (s : State), s.CanAdvance →
    WritesResultAndFlag (.shr x y) s x ((s.getV y).toNat / 2) ((s.getV y).toNat % 2) ∧
    WritesResultAndFlag (.shl x y) s x ((s.getV y).toNat * 2 % 256) ((s.getV y).toNat / 128)

/-- Every instruction with no check of its own, and SYS under the default policy, raises BadPC at `0xFFE` and makes none of
its writes, whatever the policy is for the others (R113, R213; D5, D7). -/
def Obligations.PlainInstructionsFaultAtTop : Prop :=
  ∀ (i : Instr) (s : State), plainAdvance i → (∀ nnn, i = .sys nnn → s.params.sysPolicy = .nop) → s.pc = 0xFFE →
    ∃ t, exec i s = .next t ∧ HaltedBy s t .badPC 0x1000

/-! ### Address register and memory (spec/44_index_memory.md) -/

/-- `I` takes a value, `pc` advances, and nothing else changes. -/
def WritesIndex (i : Instr) (s : State) (v : Nat) : Prop :=
  ∃ t, exec i s = .next t ∧ t.I.toNat = v ∧ t = { s with I := t.I, pc := s.pc + 2 }

/-- LD I takes `nnn`; ADD I adds modulo 65536 (D13); LD F takes the address of the glyph the low 4 bits name (D10), for
every `FONT_BASE` (R180 to R182). -/
def Obligations.IndexInstructionsWriteI : Prop :=
  ∀ (nnn : Addr12) (x : Reg) (s : State), s.CanAdvance →
    WritesIndex (.ldI nnn) s nnn.toNat ∧ WritesIndex (.addI x) s ((s.I.toNat + (s.getV x).toNat) % 65536) ∧
    WritesIndex (.ldF x) s (s.params.fontBase.val + 5 * ((s.getV x).toNat % 16))

/-- LD B stores hundreds, tens and ones at `I`, `I + 1`, `I + 2`, and nothing else changes (R183). -/
def Obligations.BcdStoresDigits : Prop :=
  ∀ (x : Reg) (s : State), s.CanAdvance → 0x200 ≤ s.I.toNat → s.I.toNat + 2 < 4096 →
    ∃ t, exec (.ldB x) s = .next t ∧ t = { s with mem := t.mem, pc := s.pc + 2 } ∧
      (t.readByte s.I.toNat).toNat = (s.getV x).toNat / 100 ∧
      (t.readByte (s.I.toNat + 1)).toNat = (s.getV x).toNat / 10 % 10 ∧
      (t.readByte (s.I.toNat + 2)).toNat = (s.getV x).toNat % 10 ∧
      ∀ a, a < s.I.toNat ∨ s.I.toNat + 2 < a → t.readByte a = s.readByte a

/-- `I` after a block transfer: unchanged, or moved by `x + 1` under the option (R184, R185, D16). -/
def IndexMoves (s t : State) (x : Reg) : Prop :=
  t.I.toNat = if s.params.loadStoreIncrementI = true then (s.I.toNat + x.val + 1) % 65536 else s.I.toNat

/-- LD [I], Vx stores `V[0]` to `V[x]` at `I` upward, and nothing else changes but `I` under the option (R184). -/
def Obligations.StoreRegsWritesBlock : Prop :=
  ∀ (x : Reg) (s : State), s.CanAdvance → 0x200 ≤ s.I.toNat → s.I.toNat + x.val < 4096 →
    ∃ t, exec (.storeRegs x) s = .next t ∧ t = { s with mem := t.mem, I := t.I, pc := s.pc + 2 } ∧
      (∀ r : Reg, r.val ≤ x.val → t.readByte (s.I.toNat + r.val) = s.getV r) ∧
      (∀ a, a < s.I.toNat ∨ s.I.toNat + x.val < a → t.readByte a = s.readByte a) ∧ IndexMoves s t x

/-- LD Vx, [I] loads `V[0]` to `V[x]` from `I` upward, reserved region included; the registers above `x` and all else stay
but `I` under the option (R185). -/
def Obligations.LoadRegsReadsBlock : Prop :=
  ∀ (x : Reg) (s : State), s.CanAdvance → s.I.toNat + x.val < 4096 →
    ∃ t, exec (.loadRegs x) s = .next t ∧ t = { s with V := t.V, I := t.I, pc := s.pc + 2 } ∧
      (∀ r : Reg, r.val ≤ x.val → t.getV r = s.readByte (s.I.toNat + r.val)) ∧
      (∀ r : Reg, x.val < r.val → t.getV r = s.getV r) ∧ IndexMoves s t x

/-- The memory faults, whatever `pc` is: OutOfRange when a byte would lie at 4096 or above, ReservedWrite when a store
begins below `0x200`; nothing is read, written or drawn (R183 to R185, R191, R214; D5, D8, D27). -/
def Obligations.BlockTransfersFault : Prop :=
  ∀ (x y : Reg) (n : Fin 16) (s : State),
    (4096 ≤ s.I.toNat + 2 → ∃ t, exec (.ldB x) s = .next t ∧ HaltedBy s t .outOfRange (max s.I.toNat 4096)) ∧
    (s.I.toNat < 0x200 → ∃ t, exec (.ldB x) s = .next t ∧ HaltedBy s t .reservedWrite s.I.toNat) ∧
    (4096 ≤ s.I.toNat + x.val →
      ∃ t, exec (.storeRegs x) s = .next t ∧ HaltedBy s t .outOfRange (max s.I.toNat 4096)) ∧
    (s.I.toNat < 0x200 → ∃ t, exec (.storeRegs x) s = .next t ∧ HaltedBy s t .reservedWrite s.I.toNat) ∧
    (4096 ≤ s.I.toNat + x.val →
      ∃ t, exec (.loadRegs x) s = .next t ∧ HaltedBy s t .outOfRange (max s.I.toNat 4096)) ∧
    (n ≠ 0 → 4096 ≤ s.I.toNat + n.val - 1 →
      ∃ t, exec (.drw x y n) s = .next t ∧ HaltedBy s t .outOfRange (max s.I.toNat 4096))

/-- Where the memory transfers and DRW meet no memory fault and stand at `0xFFE`, they raise BadPC with nothing written
(R113, R213, R214; D5, D7, D27). -/
def Obligations.BlockTransfersFaultAtTop : Prop :=
  ∀ (x y : Reg) (n : Fin 16) (s : State), s.pc = 0xFFE →
    (0x200 ≤ s.I.toNat → s.I.toNat + 2 < 4096 → ∃ t, exec (.ldB x) s = .next t ∧ HaltedBy s t .badPC 0x1000) ∧
    (0x200 ≤ s.I.toNat → s.I.toNat + x.val < 4096 →
      ∃ t, exec (.storeRegs x) s = .next t ∧ HaltedBy s t .badPC 0x1000) ∧
    (s.I.toNat + x.val < 4096 → ∃ t, exec (.loadRegs x) s = .next t ∧ HaltedBy s t .badPC 0x1000) ∧
    (n = 0 ∨ s.I.toNat + n.val - 1 < 4096 → ∃ t, exec (.drw x y n) s = .next t ∧ HaltedBy s t .badPC 0x1000)

/-- A block stored and loaded back at the same `I` gives every register its value again, whatever happened to the
registers in between (R63 (a), R184, R185). -/
def Obligations.StoreThenLoadRestoresRegisters : Prop :=
  ∀ (x : Reg) (s t u : State), 0x200 ≤ s.I.toNat → s.I.toNat + x.val < 4096 → s.CanAdvance → u.CanAdvance →
    exec (.storeRegs x) s = .next t → u.I = s.I → u.mem = t.mem → u.params = t.params →
    ∃ v, exec (.loadRegs x) u = .next v ∧ ∀ r : Reg, r.val ≤ x.val → v.getV r = s.getV r

/-! ### Display (spec/45_display.md) -/

/-- CLS makes every pixel 0 and changes nothing else; doing it twice leaves the same display (R190). -/
def Obligations.ClsBlanksDisplay : Prop :=
  ∀ s : State, s.CanAdvance →
    ∃ t, exec .cls s = .next t ∧ (∀ r c, t.disp.lit r c = false) ∧ t = { s with disp := t.disp, pc := s.pc + 2 } ∧
      ∀ u, exec .cls t = .next u → u.disp = t.disp

/-- DRW inverts exactly the pixels a 1 bit of the sprite lands on, with wraparound, and `VF` says whether one of them was
lit; nothing else changes. `n = 0` draws nothing (R191, R192; D22, D23). -/
def Obligations.DrwXorsSprite : Prop :=
  ∀ (x y : Reg) (n : Fin 16) (s : State), s.CanAdvance → (n = 0 ∨ s.I.toNat + n.val - 1 < 4096) →
    ∃ t, exec (.drw x y n) s = .next t ∧
      (∀ r c, t.disp.lit r c = true ↔ Xor (s.disp.lit r c = true) (Covers s x y n r c)) ∧
      ((∃ r c, Covers s x y n r c ∧ s.disp.lit r c = true) → t.getV VF = 1) ∧
      (¬ (∃ r c, Covers s x y n r c ∧ s.disp.lit r c = true) → t.getV VF = 0) ∧
      (∀ k, k ≠ VF → t.getV k = s.getV k) ∧ t = { s with V := t.V, disp := t.disp, pc := s.pc + 2 }

/-- Drawing the same sprite at the same place twice (the first draw left the coordinates as they were) restores every
pixel. The second draw reports a collision exactly when a 1 bit of the sprite lands on a pixel that was dark before the
first (R191's corner case says "if the sprite has any 1 bit", which holds where those pixels were dark: log 13). -/
def Obligations.DrwTwiceRestoresDisplay : Prop :=
  ∀ (x y : Reg) (n : Fin 16) (s t u : State), t.getV x = s.getV x → t.getV y = s.getV y →
    (n = 0 ∨ s.I.toNat + n.val - 1 < 4096) → s.CanAdvance → t.CanAdvance →
    exec (.drw x y n) s = .next t → exec (.drw x y n) t = .next u →
    (∀ r c, u.disp.lit r c = s.disp.lit r c) ∧
    (u.getV VF = 1 ↔ ∃ r c, Covers s x y n r c ∧ s.disp.lit r c = false)

/-! ### Timers, keys and the events of the host (spec/46_timers_keys.md, 40_execution_cycle.md) -/

/-- LD DT and LD ST write one timer, advance, and change nothing else (R202, R203). -/
def Obligations.TimerWritesSetTimers : Prop :=
  ∀ (x : Reg) (s : State), s.CanAdvance →
    exec (.ldDTVx x) s = .next { s with DT := s.getV x, pc := s.pc + 2 } ∧
    exec (.ldSTVx x) s = .next { s with ST := s.getV x, pc := s.pc + 2 }

/-- LD Vx, K begins a key wait wherever it stands: `wait_x` and the run state, and nothing else, `pc` included (R201). -/
def Obligations.KeyWaitBegins : Prop :=
  ∀ (x : Reg) (s : State), exec (.ldVxK x) s = .next { s with waitX := x, run := .waitingForKey }

/-- SupplyKey ends a wait, raises BadPC for a wait at `0xFFE` (D30), and is a no-operation outside a wait (R116). -/
def Obligations.SupplyKeyEndsWait : Prop :=
  ∀ (k : BitVec 4) (s : State),
    (s.run ≠ .waitingForKey → s.supplyKey k = s) ∧
    (s.run = .waitingForKey → s.CanAdvance →
      ((s.supplyKey k).getV s.waitX).toNat = k.toNat ∧
      (∀ r, r ≠ s.waitX → (s.supplyKey k).getV r = s.getV r) ∧
      s.supplyKey k = { s with V := (s.supplyKey k).V, run := .running, pc := s.pc + 2 }) ∧
    (s.run = .waitingForKey → s.pc = 0xFFE → HaltedBy s (s.supplyKey k) .badPC 0x1000)

/-- Tick takes one from each timer that is not 0, in every run state (D21), and touches nothing else (R115). -/
def Obligations.TickCountsDown : Prop :=
  ∀ s : State,
    (0 < s.DT.toNat → s.tick.DT.toNat = s.DT.toNat - 1) ∧ (s.DT.toNat = 0 → s.tick.DT.toNat = 0) ∧
    (0 < s.ST.toNat → s.tick.ST.toNat = s.ST.toNat - 1) ∧ (s.ST.toNat = 0 → s.tick.ST.toNat = 0) ∧
    s.tick = { s with DT := s.tick.DT, ST := s.tick.ST } ∧
    applyEvent .tick s = .next s.tick ∧ eventResult .tick s = some .ok

/-- An accepted Load: memory is the font, the program and zeros, whatever was there before, and every other piece of state
has its reset value (R34, R67, R250; D3, D4, D18, D28, D36, D42). -/
def Obligations.LoadInstallsProgram : Prop :=
  ∀ (bytes : List Byte) (s : State), bytes.length ≤ 3584 →
    (∀ a, (s.load bytes).readByte a =
      if s.params.fontBase.val ≤ a ∧ a < s.params.fontBase.val + 80 then Config.font.getD (a - s.params.fontBase.val) 0
      else if 0x200 ≤ a ∧ a < 0x200 + bytes.length then bytes.getD (a - 0x200) 0
      else 0) ∧
    s.load bytes =
      { State.resetWith s.params with
        mem := (s.load bytes).mem, schedule := s.schedule, input := s.input, draws := s.draws } ∧
    eventResult (.load bytes) s = some .ok

/-- R225: a Load of more than 3584 bytes answers ProgramTooLarge and changes nothing at all. -/
def Obligations.LoadTooLongChangesNothing : Prop :=
  ∀ (bytes : List Byte) (s : State), 3584 < bytes.length →
    eventResult (.load bytes) s = some .programTooLarge ∧ applyEvent (.load bytes) s = .next s ∧ s.load bytes = s

/-- The state after reset is the table of R34, for the parameters of log 4 (D18, D19, D42; the model's own fields of log 1
and log 2 are left out). -/
def Obligations.ResetMatchesTable : Prop :=
  (∀ r, State.reset.getV r = 0) ∧ State.reset.pc = 0x200 ∧ State.reset.I = 0 ∧ State.reset.SP = 0 ∧
  (∀ j : Fin Config.stackDepth, State.reset.stack[j.val] = 0) ∧ State.reset.DT = 0 ∧ State.reset.ST = 0 ∧
  (∀ r c, State.reset.disp.lit r c = false) ∧ State.reset.run = .running ∧ State.reset.waitX = 0 ∧
  State.reset.fault = { cause := .none, pc := 0, word := 0, info := 0 } ∧
  State.reset.readByte 0x050 = 0xF0 ∧ State.reset.readByte 0x051 = 0x90 ∧ State.reset.readByte 0x09F = 0x80 ∧
  State.reset.readByte 0x04F = 0 ∧ State.reset.readByte 0x0A0 = 0 ∧ State.reset.readByte 0x200 = 0

/-! ### Steps and events -/

/-- A Step of a running machine whose word at `pc` decodes is `exec` of that instruction, after the inputs are presented:
free ones with an empty schedule, the scheduled ones otherwise (R111, R118; log 1, log 2). -/
def Obligations.StepRunsDecodedInstruction : Prop :=
  ∀ (s : State) (w : Word) (i : Instr), s.run = .running → s.readWord s.pc.toNat = .ok w → decode w = .ok i →
    (s.schedule = [] → step s = exec i (s.present none)) ∧
    (∀ keys rnd rest, s.schedule = .step keys rnd :: rest →
      step s = exec i ({ s with schedule := rest }.present (some ⟨keys, rnd⟩)))

/-- R114: a Step when the machine is not running changes nothing: no fetch, no decode, no new record, no timer. -/
def Obligations.StepWhenNotRunningChangesNothing : Prop :=
  ∀ (inp : Option Inputs) (s : State), s.run ≠ .running → stepEvent inp s = .next s

/-- A fetched word that matches nothing raises UnknownOpcode with the word, and a fetch that leaves memory raises
OutOfRange with word 0, before any state change (R86, R111, R210). -/
def Obligations.StepRaisesBeforeExecuting : Prop :=
  ∀ (inp : Option Inputs) (s : State) (w : Word), s.run = .running →
    (s.readWord s.pc.toNat = .ok w → decode w = .error (.unknownOpcode w) →
      ∃ t, stepEvent inp s = .next t ∧ HaltedBy s t .unknownOpcode w.toNat ∧ t.fault.word = w) ∧
    (4095 ≤ s.pc.toNat →
      ∃ t, stepEvent inp s = .next t ∧ HaltedBy s t .outOfRange (max s.pc.toNat 4096) ∧ t.fault.word = 0)

/-- The events of the host come in the order of the schedule, each taken once (R110, R117; log 1). -/
def Obligations.StepTakesScheduledEvents : Prop :=
  ∀ (s : State) (rest : List Event),
    (s.schedule = .tick :: rest → step s = .next { s.tick with schedule := rest }) ∧
    (∀ k, s.schedule = .supplyKey k :: rest → step s = .next { s.supplyKey k with schedule := rest }) ∧
    (∀ bytes, s.schedule = .load bytes :: rest → step s = .next { s.load bytes with schedule := rest })

/-- The invariant of R35 holds after a Load of the empty program, for all parameters, and so at reset. -/
def Obligations.InvHoldsAtReset : Prop := (∀ p, (State.resetWith p).Inv) ∧ State.reset.Inv

/-- Every step, whatever event the schedule holds, keeps the invariant of R35 and the canonical form of memory. -/
def Obligations.StepKeepsInv : Prop := ∀ s t : State, s.Inv → step s = .next t → t.Inv

/-- From every state of the invariant every event answers a next state: no refusal and no stop (R110). -/
def Obligations.EveryStepAnswers : Prop := ∀ s : State, s.Inv → ∃ t, step s = .next t

/-- Halted is terminal: no event but Load changes anything but the timers, the record is never overwritten, an accepted
Load leaves it, and a rejected one changes nothing (R215, R225; D21, D35, D36). -/
def Obligations.HaltedIsTerminal : Prop :=
  ∀ (e : Event) (s t : State), s.run = .halted → applyEvent e s = .next t →
    ((∀ bytes, e ≠ .load bytes) → t = { s with DT := t.DT, ST := t.ST }) ∧
    (∀ bytes, e = .load bytes → bytes.length ≤ 3584 → t.run = .running ∧ t.fault.cause = .none) ∧
    (∀ bytes, e = .load bytes → 3584 < bytes.length → t = s)

/-! ### Frames: who writes what (spec/10_state.md R21, R36) -/

/-- An instruction changes no general register but those R21 and R36 list for it. -/
def Obligations.RegisterFrame : Prop :=
  ∀ (i : Instr) (s t : State) (r : Reg), exec i s = .next t → ¬ writesReg i r → t.getV r = s.getV r

/-- An instruction changes no byte but those LD B and LD [I] store to, and never one of the reserved region. -/
def Obligations.MemoryFrame : Prop :=
  ∀ (i : Instr) (s t : State) (a : Nat), exec i s = .next t → (¬ storesTo i s a ∨ a < 0x200) →
    t.readByte a = s.readByte a

/-- No instruction but CALL and RET changes the stack pointer or an entry, and those leave every entry but the one they
push as it was. -/
def Obligations.StackFrame : Prop :=
  ∀ (i : Instr) (s t : State), exec i s = .next t →
    (((∀ nnn, i ≠ .call nnn) ∧ i ≠ .ret) → t.SP = s.SP) ∧
    ((∀ nnn, i ≠ .call nnn) → t.stack = s.stack) ∧
    (∀ j : Fin Config.stackDepth, j.val ≠ s.SP.toNat → t.stack[j.val] = s.stack[j.val])

/-- `I`, the timers and the display change only by the instructions R36 lists; the parameters and the model's own fields
by none. -/
def Obligations.OtherStateFrame : Prop :=
  ∀ (i : Instr) (s t : State), exec i s = .next t →
    (¬ writesIndex i s → t.I = s.I) ∧ ((∀ x, i ≠ .ldDTVx x) → t.DT = s.DT) ∧ ((∀ x, i ≠ .ldSTVx x) → t.ST = s.ST) ∧
    ((∀ x y n, i ≠ .drw x y n) → i ≠ .cls → t.disp = s.disp) ∧
    t.params = s.params ∧ t.schedule = s.schedule ∧ t.input = s.input ∧ t.draws = s.draws

/-- Precise faults: an instruction leaves the run state, the record and `wait_x` as they were, begins a key wait, or
halts with a record that names its own address and word and with everything else unchanged (R201, R212, R213; D5). -/
def Obligations.FaultsArePrecise : Prop :=
  ∀ (i : Instr) (s t : State), exec i s = .next t →
    (t.run = s.run ∧ t.fault = s.fault ∧ t.waitX = s.waitX) ∨
    (∃ x, i = .ldVxK x ∧ t = { s with run := .waitingForKey, waitX := x }) ∨
    (∃ cause info, cause ≠ .none ∧ HaltedBy s t cause info)

/-- Only SKP, SKNP and RND read an input: the others do the same whatever keys and random byte are presented (R118). -/
def Obligations.InputsReadByThreeOnly : Prop :=
  ∀ (i : Instr) (s : State) (inp : Option Inputs), ¬ readsInput i →
    (∀ t, exec i s = .next t → exec i { s with input := inp } = .next { t with input := inp }) ∧
    (∀ f, exec i s = .fault f → exec i { s with input := inp } = .fault f)

/-- A word that LD [I], Vx stores (in its bytes from `V[0]` and `V[1]`, so `x` is 1 or more) where the next Step fetches is
the word at `pc`, and the instruction it decodes to is the one that Step executes, with free or scheduled inputs (R65,
R253; log 1, log 2). -/
def Obligations.FetchSeesStoredWord : Prop :=
  ∀ (x : Reg) (s t : State) (w : Word), s.run = .running → s.CanAdvance → 1 ≤ x.val → s.I = s.pc + 2 →
    s.I.toNat + x.val < 4096 → s.getV 0 = (w >>> 8).setWidth 8 → s.getV 1 = w.setWidth 8 →
    exec (.storeRegs x) s = .next t →
    t.readWord t.pc.toNat = .ok w ∧
    ∀ i, decode w = .ok i →
      (s.schedule = [] → step t = exec i (t.present none)) ∧
      (∀ keys rnd rest, s.schedule = .step keys rnd :: rest →
        step t = exec i ({ t with schedule := rest }.present (some ⟨keys, rnd⟩)))

/-- A jump to its own address ends a run: a Step from there changes nothing of the machine (R120, D26). -/
def Obligations.RunOverStaysPut : Prop :=
  ∀ s : State, s.RunOver → s.schedule = [] → ∃ t, step s = .next t ∧ t.machine = s.machine
end

