-- ==== Sys2Proof/Laws/Decode.lean ====
section
/-! SUPPORT. The masks of the opcode map as arithmetic, and the fields of an encoded word (spec/30_encoding.md R81, R82,
R84). -/

namespace Sys2Proof

/-! ### The four masks (R84) -/

theorem and_high (w : Word) : w &&& 0xF000#16 = (w >>> 12) <<< 12 := by
  apply BitVec.eq_of_getLsbD_eq
  intro i hi
  interval_cases i <;> simp

theorem and_low (w : Word) (k : Nat) (hk : k ≤ 16) :
    w &&& BitVec.ofNat 16 (2 ^ k - 1) = BitVec.ofNat 16 (w.toNat % 2 ^ k) := by
  apply BitVec.eq_of_toNat_eq
  have h1 : 2 ^ k ≤ 2 ^ 16 := Nat.pow_le_pow_right (by decide) hk
  have h2 : 0 < 2 ^ k := Nat.two_pow_pos k
  have h3 : w.toNat % 2 ^ k < 2 ^ k := Nat.mod_lt _ h2
  rw [BitVec.toNat_and, BitVec.toNat_ofNat, BitVec.toNat_ofNat, Nat.mod_eq_of_lt (show 2 ^ k - 1 < 2 ^ 16 by omega),
    Nat.and_two_pow_sub_one_eq_mod]
  exact (Nat.mod_eq_of_lt (by omega)).symm

theorem toNat_and_F000 (w : Word) : (w &&& 0xF000#16).toNat = w.toNat / 4096 * 4096 := by
  rw [and_high]
  simp [Nat.shiftRight_eq_div_pow, Nat.shiftLeft_eq]
  omega

theorem toNat_and_split (w : Word) (k : Nat) (hk : k ≤ 12) (m : Word)
    (hm : m = 0xF000#16 ||| BitVec.ofNat 16 (2 ^ k - 1)) (hd : (0xF000#16) &&& BitVec.ofNat 16 (2 ^ k - 1) = 0) :
    (w &&& m).toNat = w.toNat / 4096 * 4096 + w.toNat % 2 ^ k := by
  have hw := w.isLt
  have h1 : 2 ^ k ≤ 2 ^ 12 := Nat.pow_le_pow_right (by decide) hk
  have h3 : w.toNat % 2 ^ k < 2 ^ k := Nat.mod_lt _ (Nat.two_pow_pos k)
  have hz : (w &&& 0xF000#16) &&& (w &&& BitVec.ofNat 16 (2 ^ k - 1)) = 0#16 := by
    rw [show (w &&& 0xF000#16) &&& (w &&& BitVec.ofNat 16 (2 ^ k - 1)) =
      w &&& (0xF000#16 &&& BitVec.ofNat 16 (2 ^ k - 1)) by
        apply BitVec.eq_of_getLsbD_eq; intro i _; simp only [BitVec.getLsbD_and]
        cases w.getLsbD i <;> simp, hd]
    simp
  have ho : w &&& m = (w &&& 0xF000#16) + (w &&& BitVec.ofNat 16 (2 ^ k - 1)) := by
    rw [BitVec.add_eq_or_of_and_eq_zero _ _ hz, hm]
    apply BitVec.eq_of_getLsbD_eq; intro i _
    simp only [BitVec.getLsbD_and, BitVec.getLsbD_or]
    cases w.getLsbD i <;> simp
  rw [ho, BitVec.toNat_add, toNat_and_F000, and_low w k (by omega), BitVec.toNat_ofNat]
  rw [Nat.mod_eq_of_lt (show w.toNat % 2 ^ k < 2 ^ 16 by omega)]
  apply Nat.mod_eq_of_lt
  omega

theorem toNat_and_F00F (w : Word) : (w &&& 0xF00F#16).toNat = w.toNat / 4096 * 4096 + w.toNat % 16 :=
  toNat_and_split w 4 (by decide) _ (by decide) (by decide)

theorem toNat_and_F0FF (w : Word) : (w &&& 0xF0FF#16).toNat = w.toNat / 4096 * 4096 + w.toNat % 256 :=
  toNat_and_split w 8 (by decide) _ (by decide) (by decide)

theorem toNat_and_FFFF (w : Word) : (w &&& 0xFFFF#16).toNat = w.toNat := by
  have : w &&& 0xFFFF#16 = w := BitVec.and_allOnes
  rw [this]

/-- A row matches by its masked value (R84). -/
theorem OpcodeRow.matchesWord_iff (r : OpcodeRow) (w : Word) :
    r.matchesWord w = true ↔ (w &&& r.mask).toNat = r.pattern.toNat := by
  rw [OpcodeRow.matchesWord, beq_iff_eq, BitVec.toNat_inj]

/-- Two rows that match one word agree where their masks overlap (R84). -/
theorem OpcodeRow.agree {r q : OpcodeRow} {w : Word} (hr : r.matchesWord w = true) (hq : q.matchesWord w = true) :
    r.pattern &&& q.mask = q.pattern &&& r.mask := by
  simp only [OpcodeRow.matchesWord, beq_iff_eq] at hr hq
  rw [← hr, ← hq, BitVec.and_assoc, BitVec.and_assoc, BitVec.and_comm r.mask]

/-! ### The word of two bytes as arithmetic (R54) -/

theorem wordOfBytes_toNat (hi lo : Byte) : (wordOfBytes hi lo).toNat = 256 * hi.toNat + lo.toNat := by
  have := lo.isLt
  rw [wordOfBytes, BitVec.toNat_append, ← Nat.shiftLeft_add_eq_or_of_lt (by omega), Nat.shiftLeft_eq]
  omega

/-! ### The fields of a word as arithmetic (R81) -/

theorem fieldU_val (w : Word) : (fieldU w).val = w.toNat / 4096 := by
  have := w.isLt
  simp [fieldU, Nat.shiftRight_eq_div_pow]
  omega

theorem fieldX_val (w : Word) : (fieldX w).val = w.toNat / 256 % 16 := by
  simp [fieldX, Nat.shiftRight_eq_div_pow]

theorem fieldY_val (w : Word) : (fieldY w).val = w.toNat / 16 % 16 := by
  simp [fieldY, Nat.shiftRight_eq_div_pow]

theorem fieldN_val (w : Word) : (fieldN w).val = w.toNat % 16 := by
  simp [fieldN]

theorem fieldKK_toNat (w : Word) : (fieldKK w).toNat = w.toNat % 256 := by
  simp [fieldKK]

theorem fieldNNN_toNat (w : Word) : (fieldNNN w).toNat = w.toNat % 4096 := by
  simp [fieldNNN]

/-! ### Encoded words (R82, R89) -/

theorem wordNNN_toNat {u : Nat} (hu : u < 16) (nnn : Addr12) : (wordNNN u nnn).toNat = u * 4096 + nnn.toNat := by
  have := nnn.isLt
  simp [wordNNN]
  omega

theorem wordXKK_toNat {u : Nat} (hu : u < 16) (x : Reg) (kk : Byte) :
    (wordXKK u x kk).toNat = u * 4096 + x.val * 256 + kk.toNat := by
  have := x.isLt
  have := kk.isLt
  simp [wordXKK]
  omega

theorem wordXYN_toNat {u n : Nat} (hu : u < 16) (hn : n < 16) (x y : Reg) :
    (wordXYN u x y n).toNat = u * 4096 + x.val * 256 + y.val * 16 + n := by
  have := x.isLt
  have := y.isLt
  simp [wordXYN]
  omega

theorem wordX_toNat {u kk : Nat} (hu : u < 16) (hk : kk < 256) (x : Reg) :
    (wordX u x kk).toNat = u * 4096 + x.val * 256 + kk := by
  have := x.isLt
  simp [wordX]
  omega

@[simp] theorem fieldNNN_wordNNN {u : Nat} (hu : u < 16) (nnn : Addr12) : fieldNNN (wordNNN u nnn) = nnn := by
  apply BitVec.eq_of_toNat_eq
  have := nnn.isLt
  rw [fieldNNN_toNat, wordNNN_toNat hu]
  omega

@[simp] theorem fieldX_wordXKK {u : Nat} (hu : u < 16) (x : Reg) (kk : Byte) : fieldX (wordXKK u x kk) = x := by
  apply Fin.ext
  have := x.isLt
  have := kk.isLt
  rw [fieldX_val, wordXKK_toNat hu]
  omega

@[simp] theorem fieldKK_wordXKK {u : Nat} (hu : u < 16) (x : Reg) (kk : Byte) : fieldKK (wordXKK u x kk) = kk := by
  apply BitVec.eq_of_toNat_eq
  have := kk.isLt
  rw [fieldKK_toNat, wordXKK_toNat hu]
  omega

@[simp] theorem fieldX_wordXYN {u n : Nat} (hu : u < 16) (hn : n < 16) (x y : Reg) : fieldX (wordXYN u x y n) = x := by
  apply Fin.ext
  have := x.isLt
  have := y.isLt
  rw [fieldX_val, wordXYN_toNat hu hn]
  omega

@[simp] theorem fieldY_wordXYN {u n : Nat} (hu : u < 16) (hn : n < 16) (x y : Reg) : fieldY (wordXYN u x y n) = y := by
  apply Fin.ext
  have := y.isLt
  rw [fieldY_val, wordXYN_toNat hu hn]
  omega

@[simp] theorem fieldN_wordXYN {u : Nat} (hu : u < 16) (x y : Reg) (n : Fin 16) :
    fieldN (wordXYN u x y n.val) = n := by
  apply Fin.ext
  have := n.isLt
  rw [fieldN_val, wordXYN_toNat hu n.isLt]
  omega

@[simp] theorem fieldX_wordX {u kk : Nat} (hu : u < 16) (hk : kk < 256) (x : Reg) : fieldX (wordX u x kk) = x := by
  apply Fin.ext
  have := x.isLt
  rw [fieldX_val, wordX_toNat hu hk]
  omega

/-! ### Which encoded words a row matches (R84) -/

theorem matches_wordNNN {u : Nat} (hu : u < 16) (nnn : Addr12) {r : OpcodeRow} (hm : r.mask = 0xF000#16)
    (hp : r.pattern.toNat = u * 4096) : r.matchesWord (wordNNN u nnn) = true := by
  have := nnn.isLt
  rw [OpcodeRow.matchesWord_iff, hm, hp, toNat_and_F000, wordNNN_toNat hu]
  omega

theorem matches_wordXKK {u : Nat} (hu : u < 16) (x : Reg) (kk : Byte) {r : OpcodeRow} (hm : r.mask = 0xF000#16)
    (hp : r.pattern.toNat = u * 4096) : r.matchesWord (wordXKK u x kk) = true := by
  have := x.isLt
  have := kk.isLt
  rw [OpcodeRow.matchesWord_iff, hm, hp, toNat_and_F000, wordXKK_toNat hu]
  omega

theorem matches_wordXY {u n : Nat} (hu : u < 16) (hn : n < 16) (x y : Reg) {r : OpcodeRow} (hm : r.mask = 0xF00F#16)
    (hp : r.pattern.toNat = u * 4096 + n) : r.matchesWord (wordXYN u x y n) = true := by
  have := x.isLt
  have := y.isLt
  rw [OpcodeRow.matchesWord_iff, hm, hp, toNat_and_F00F, wordXYN_toNat hu hn]
  omega

theorem matches_wordXYN {u n : Nat} (hu : u < 16) (hn : n < 16) (x y : Reg) {r : OpcodeRow} (hm : r.mask = 0xF000#16)
    (hp : r.pattern.toNat = u * 4096) : r.matchesWord (wordXYN u x y n) = true := by
  have := x.isLt
  have := y.isLt
  rw [OpcodeRow.matchesWord_iff, hm, hp, toNat_and_F000, wordXYN_toNat hu hn]
  omega

theorem matches_wordX {u kk : Nat} (hu : u < 16) (hk : kk < 256) (x : Reg) {r : OpcodeRow} (hm : r.mask = 0xF0FF#16)
    (hp : r.pattern.toNat = u * 4096 + kk) : r.matchesWord (wordX u x kk) = true := by
  have := x.isLt
  rw [OpcodeRow.matchesWord_iff, hm, hp, toNat_and_F0FF, wordX_toNat hu hk]
  omega

end Sys2Proof
end

