-- ==== Sys2Proof/Laws/State.lean ====
section
/-! SUPPORT. What each named update leaves of each field of State, one lemma per field, so that no proof unfolds a record
update. -/

namespace Sys2Proof.Machine

/-! ### `setV` -/

@[simp] theorem State.setV_V (s : State) (x : Reg) (v : Byte) : (s.setV x v).V = s.V.set x.val v := rfl
@[simp] theorem State.setV_pc (s : State) (x : Reg) (v : Byte) : (s.setV x v).pc = s.pc := rfl
@[simp] theorem State.setV_I (s : State) (x : Reg) (v : Byte) : (s.setV x v).I = s.I := rfl
@[simp] theorem State.setV_SP (s : State) (x : Reg) (v : Byte) : (s.setV x v).SP = s.SP := rfl
@[simp] theorem State.setV_stack (s : State) (x : Reg) (v : Byte) : (s.setV x v).stack = s.stack := rfl
@[simp] theorem State.setV_DT (s : State) (x : Reg) (v : Byte) : (s.setV x v).DT = s.DT := rfl
@[simp] theorem State.setV_ST (s : State) (x : Reg) (v : Byte) : (s.setV x v).ST = s.ST := rfl
@[simp] theorem State.setV_mem (s : State) (x : Reg) (v : Byte) : (s.setV x v).mem = s.mem := rfl
@[simp] theorem State.setV_disp (s : State) (x : Reg) (v : Byte) : (s.setV x v).disp = s.disp := rfl
@[simp] theorem State.setV_run (s : State) (x : Reg) (v : Byte) : (s.setV x v).run = s.run := rfl
@[simp] theorem State.setV_waitX (s : State) (x : Reg) (v : Byte) : (s.setV x v).waitX = s.waitX := rfl
@[simp] theorem State.setV_fault (s : State) (x : Reg) (v : Byte) : (s.setV x v).fault = s.fault := rfl
@[simp] theorem State.setV_params (s : State) (x : Reg) (v : Byte) : (s.setV x v).params = s.params := rfl
@[simp] theorem State.setV_schedule (s : State) (x : Reg) (v : Byte) : (s.setV x v).schedule = s.schedule := rfl
@[simp] theorem State.setV_input (s : State) (x : Reg) (v : Byte) : (s.setV x v).input = s.input := rfl
@[simp] theorem State.setV_draws (s : State) (x : Reg) (v : Byte) : (s.setV x v).draws = s.draws := rfl

/-! ### `raise` -/

@[simp] theorem State.raise_V (s : State) (e : Raised) : (s.raise e).V = s.V := rfl
@[simp] theorem State.raise_pc (s : State) (e : Raised) : (s.raise e).pc = s.pc := rfl
@[simp] theorem State.raise_I (s : State) (e : Raised) : (s.raise e).I = s.I := rfl
@[simp] theorem State.raise_SP (s : State) (e : Raised) : (s.raise e).SP = s.SP := rfl
@[simp] theorem State.raise_stack (s : State) (e : Raised) : (s.raise e).stack = s.stack := rfl
@[simp] theorem State.raise_DT (s : State) (e : Raised) : (s.raise e).DT = s.DT := rfl
@[simp] theorem State.raise_ST (s : State) (e : Raised) : (s.raise e).ST = s.ST := rfl
@[simp] theorem State.raise_mem (s : State) (e : Raised) : (s.raise e).mem = s.mem := rfl
@[simp] theorem State.raise_disp (s : State) (e : Raised) : (s.raise e).disp = s.disp := rfl
@[simp] theorem State.raise_run (s : State) (e : Raised) : (s.raise e).run = .halted := rfl
@[simp] theorem State.raise_waitX (s : State) (e : Raised) : (s.raise e).waitX = s.waitX := rfl
@[simp] theorem State.raise_fault (s : State) (e : Raised) : (s.raise e).fault = { cause := e.cause, pc := s.pc, word := s.wordAtPc, info := BitVec.ofNat 17 e.info } := rfl
@[simp] theorem State.raise_params (s : State) (e : Raised) : (s.raise e).params = s.params := rfl
@[simp] theorem State.raise_schedule (s : State) (e : Raised) : (s.raise e).schedule = s.schedule := rfl
@[simp] theorem State.raise_input (s : State) (e : Raised) : (s.raise e).input = s.input := rfl
@[simp] theorem State.raise_draws (s : State) (e : Raised) : (s.raise e).draws = s.draws := rfl

/-! ### `writeFlagged` -/

@[simp] theorem State.writeFlagged_V (s : State) (x : Reg) (fr : Byte × Byte) : (s.writeFlagged x fr).V = (s.V.set VF.val fr.1).set x.val fr.2 := rfl
@[simp] theorem State.writeFlagged_pc (s : State) (x : Reg) (fr : Byte × Byte) : (s.writeFlagged x fr).pc = s.pc := rfl
@[simp] theorem State.writeFlagged_I (s : State) (x : Reg) (fr : Byte × Byte) : (s.writeFlagged x fr).I = s.I := rfl
@[simp] theorem State.writeFlagged_SP (s : State) (x : Reg) (fr : Byte × Byte) : (s.writeFlagged x fr).SP = s.SP := rfl
@[simp] theorem State.writeFlagged_stack (s : State) (x : Reg) (fr : Byte × Byte) : (s.writeFlagged x fr).stack = s.stack := rfl
@[simp] theorem State.writeFlagged_DT (s : State) (x : Reg) (fr : Byte × Byte) : (s.writeFlagged x fr).DT = s.DT := rfl
@[simp] theorem State.writeFlagged_ST (s : State) (x : Reg) (fr : Byte × Byte) : (s.writeFlagged x fr).ST = s.ST := rfl
@[simp] theorem State.writeFlagged_mem (s : State) (x : Reg) (fr : Byte × Byte) : (s.writeFlagged x fr).mem = s.mem := rfl
@[simp] theorem State.writeFlagged_disp (s : State) (x : Reg) (fr : Byte × Byte) : (s.writeFlagged x fr).disp = s.disp := rfl
@[simp] theorem State.writeFlagged_run (s : State) (x : Reg) (fr : Byte × Byte) : (s.writeFlagged x fr).run = s.run := rfl
@[simp] theorem State.writeFlagged_waitX (s : State) (x : Reg) (fr : Byte × Byte) : (s.writeFlagged x fr).waitX = s.waitX := rfl
@[simp] theorem State.writeFlagged_fault (s : State) (x : Reg) (fr : Byte × Byte) : (s.writeFlagged x fr).fault = s.fault := rfl
@[simp] theorem State.writeFlagged_params (s : State) (x : Reg) (fr : Byte × Byte) : (s.writeFlagged x fr).params = s.params := rfl
@[simp] theorem State.writeFlagged_schedule (s : State) (x : Reg) (fr : Byte × Byte) : (s.writeFlagged x fr).schedule = s.schedule := rfl
@[simp] theorem State.writeFlagged_input (s : State) (x : Reg) (fr : Byte × Byte) : (s.writeFlagged x fr).input = s.input := rfl
@[simp] theorem State.writeFlagged_draws (s : State) (x : Reg) (fr : Byte × Byte) : (s.writeFlagged x fr).draws = s.draws := rfl

/-! ### `setRegs` -/

@[simp] theorem State.setRegs_V (s : State) (t : List Byte) : (s.setRegs t).V = Vector.ofFn fun i : Fin 16 => t.getD i.val (s.getV i) := rfl
@[simp] theorem State.setRegs_pc (s : State) (t : List Byte) : (s.setRegs t).pc = s.pc := rfl
@[simp] theorem State.setRegs_I (s : State) (t : List Byte) : (s.setRegs t).I = s.I := rfl
@[simp] theorem State.setRegs_SP (s : State) (t : List Byte) : (s.setRegs t).SP = s.SP := rfl
@[simp] theorem State.setRegs_stack (s : State) (t : List Byte) : (s.setRegs t).stack = s.stack := rfl
@[simp] theorem State.setRegs_DT (s : State) (t : List Byte) : (s.setRegs t).DT = s.DT := rfl
@[simp] theorem State.setRegs_ST (s : State) (t : List Byte) : (s.setRegs t).ST = s.ST := rfl
@[simp] theorem State.setRegs_mem (s : State) (t : List Byte) : (s.setRegs t).mem = s.mem := rfl
@[simp] theorem State.setRegs_disp (s : State) (t : List Byte) : (s.setRegs t).disp = s.disp := rfl
@[simp] theorem State.setRegs_run (s : State) (t : List Byte) : (s.setRegs t).run = s.run := rfl
@[simp] theorem State.setRegs_waitX (s : State) (t : List Byte) : (s.setRegs t).waitX = s.waitX := rfl
@[simp] theorem State.setRegs_fault (s : State) (t : List Byte) : (s.setRegs t).fault = s.fault := rfl
@[simp] theorem State.setRegs_params (s : State) (t : List Byte) : (s.setRegs t).params = s.params := rfl
@[simp] theorem State.setRegs_schedule (s : State) (t : List Byte) : (s.setRegs t).schedule = s.schedule := rfl
@[simp] theorem State.setRegs_input (s : State) (t : List Byte) : (s.setRegs t).input = s.input := rfl
@[simp] theorem State.setRegs_draws (s : State) (t : List Byte) : (s.setRegs t).draws = s.draws := rfl

/-! ### `present` -/

@[simp] theorem State.present_V (s : State) (inp : Option Inputs) : (s.present inp).V = s.V := rfl
@[simp] theorem State.present_pc (s : State) (inp : Option Inputs) : (s.present inp).pc = s.pc := rfl
@[simp] theorem State.present_I (s : State) (inp : Option Inputs) : (s.present inp).I = s.I := rfl
@[simp] theorem State.present_SP (s : State) (inp : Option Inputs) : (s.present inp).SP = s.SP := rfl
@[simp] theorem State.present_stack (s : State) (inp : Option Inputs) : (s.present inp).stack = s.stack := rfl
@[simp] theorem State.present_DT (s : State) (inp : Option Inputs) : (s.present inp).DT = s.DT := rfl
@[simp] theorem State.present_ST (s : State) (inp : Option Inputs) : (s.present inp).ST = s.ST := rfl
@[simp] theorem State.present_mem (s : State) (inp : Option Inputs) : (s.present inp).mem = s.mem := rfl
@[simp] theorem State.present_disp (s : State) (inp : Option Inputs) : (s.present inp).disp = s.disp := rfl
@[simp] theorem State.present_run (s : State) (inp : Option Inputs) : (s.present inp).run = s.run := rfl
@[simp] theorem State.present_waitX (s : State) (inp : Option Inputs) : (s.present inp).waitX = s.waitX := rfl
@[simp] theorem State.present_fault (s : State) (inp : Option Inputs) : (s.present inp).fault = s.fault := rfl
@[simp] theorem State.present_params (s : State) (inp : Option Inputs) : (s.present inp).params = s.params := rfl
@[simp] theorem State.present_schedule (s : State) (inp : Option Inputs) : (s.present inp).schedule = s.schedule := rfl
@[simp] theorem State.present_input (s : State) (inp : Option Inputs) : (s.present inp).input = inp := rfl
@[simp] theorem State.present_draws (s : State) (inp : Option Inputs) : (s.present inp).draws = s.draws + 1 := rfl

/-! ### `tick` -/

@[simp] theorem State.tick_V (s : State) : s.tick.V = s.V := rfl
@[simp] theorem State.tick_pc (s : State) : s.tick.pc = s.pc := rfl
@[simp] theorem State.tick_I (s : State) : s.tick.I = s.I := rfl
@[simp] theorem State.tick_SP (s : State) : s.tick.SP = s.SP := rfl
@[simp] theorem State.tick_stack (s : State) : s.tick.stack = s.stack := rfl
@[simp] theorem State.tick_DT (s : State) : s.tick.DT = countDown s.DT := rfl
@[simp] theorem State.tick_ST (s : State) : s.tick.ST = countDown s.ST := rfl
@[simp] theorem State.tick_mem (s : State) : s.tick.mem = s.mem := rfl
@[simp] theorem State.tick_disp (s : State) : s.tick.disp = s.disp := rfl
@[simp] theorem State.tick_run (s : State) : s.tick.run = s.run := rfl
@[simp] theorem State.tick_waitX (s : State) : s.tick.waitX = s.waitX := rfl
@[simp] theorem State.tick_fault (s : State) : s.tick.fault = s.fault := rfl
@[simp] theorem State.tick_params (s : State) : s.tick.params = s.params := rfl
@[simp] theorem State.tick_schedule (s : State) : s.tick.schedule = s.schedule := rfl
@[simp] theorem State.tick_input (s : State) : s.tick.input = s.input := rfl
@[simp] theorem State.tick_draws (s : State) : s.tick.draws = s.draws := rfl

/-! ### Registers -/

theorem State.getV_setV (s : State) (x r : Reg) (v : Byte) :
    (s.setV x v).getV r = if r = x then v else s.getV r := by
  simp [State.getV, State.setV, Vector.getElem_set, Fin.ext_iff, eq_comm]

@[simp] theorem State.getV_setV_same (s : State) (x : Reg) (v : Byte) : (s.setV x v).getV x = v := by
  simp [State.getV_setV]

theorem State.getV_setV_ne (s : State) {x r : Reg} (v : Byte) (h : r ≠ x) : (s.setV x v).getV r = s.getV r := by
  simp [State.getV_setV, h]

/-- Two states agree when their registers agree one by one and their other fields are equal. -/
theorem State.V_ext {s t : State} (h : ∀ r : Reg, s.getV r = t.getV r) : s.V = t.V := by
  apply Vector.ext
  intro i hi
  exact h ⟨i, hi⟩

/-- The final registers of a flag-writing instruction: the result in `V[x]`, the flag in `VF` where `x` is another
register (R172). -/
theorem State.getV_writeFlagged (s : State) (x r : Reg) (fr : Byte × Byte) :
    (s.writeFlagged x fr).getV r = if r = x then fr.2 else if r = VF then fr.1 else s.getV r := by
  simp [State.writeFlagged, State.getV_setV]

theorem State.getV_setRegs (s : State) (t : List Byte) (r : Reg) :
    (s.setRegs t).getV r = t.getD r.val (s.getV r) := by
  simp [State.getV, State.setRegs]

/-! ### What a register update leaves of memory, inputs and the word at `pc` -/

@[simp] theorem State.readByte_setV (s : State) (x : Reg) (v : Byte) (a : Nat) :
    (s.setV x v).readByte a = s.readByte a := rfl

@[simp] theorem State.readByte_raise (s : State) (e : Raised) (a : Nat) : (s.raise e).readByte a = s.readByte a := rfl

@[simp] theorem State.getV_raise (s : State) (e : Raised) (r : Reg) : (s.raise e).getV r = s.getV r := rfl

@[simp] theorem State.readByte_present (s : State) (inp : Option Inputs) (a : Nat) :
    (s.present inp).readByte a = s.readByte a := rfl

@[simp] theorem State.getV_present (s : State) (inp : Option Inputs) (r : Reg) : (s.present inp).getV r = s.getV r := rfl

@[simp] theorem State.wordAtPc_present (s : State) (inp : Option Inputs) : (s.present inp).wordAtPc = s.wordAtPc := rfl

@[simp] theorem State.raise_present (s : State) (inp : Option Inputs) (e : Raised) :
    (s.present inp).raise e = (s.raise e).present inp := rfl

end Sys2Proof.Machine
end

