-- ==== Sys2Proof/Laws/Memory.lean ====
section
/-! SUPPORT. The laws of memory: reading after writing, the canonical form, and what a block access can answer
(spec/20_memory.md R52, R53, R57, R58, R63). -/

namespace Sys2Proof.Machine

variable {fb : Fin 0x1B1}

/-! ### Reset contents -/

theorem font_length : Config.font.length = 80 := by decide

/-- At `0x200` and above an unlisted address reads as 0, whatever `FONT_BASE` is (R34, R61). -/
theorem unlisted_program (fb : Fin 0x1B1) {a : Nat} (h : 0x200 ≤ a) : unlisted fb a = 0 := by
  have hfb := fb.isLt
  have hlen := font_length
  unfold unlisted
  split
  · rfl
  · exact List.getD_eq_default _ _ (by omega)

/-! ### Reading after a write -/

theorem Memory.read_insert (m : Memory) (a b : Nat) (v : Byte) :
    (Memory.insert m a v).read fb b = if b = a then v else Memory.read fb m b := by
  induction m with
  | nil =>
    by_cases h : a = b
    · subst h; simp [Memory.insert, Memory.read]
    · simp [Memory.insert, Memory.read, h, Ne.symm h]
  | cons c m ih =>
    obtain ⟨k, w⟩ := c
    unfold Memory.insert
    split
    · rename_i hlt
      by_cases h : a = b
      · subst h; simp [Memory.read]
      · simp [Memory.read, h, Ne.symm h]
    · split
      · rename_i _ heq
        subst heq
        by_cases h : a = b
        · subst h; simp [Memory.read]
        · simp [Memory.read, h, Ne.symm h]
      · rename_i _ hne
        by_cases h : k = b
        · subst h; simp [Memory.read, Ne.symm hne]
        · simp [Memory.read, h, ih]

theorem Memory.read_erase_same (m : Memory) (a : Nat) : (Memory.erase m a).read fb a = unlisted fb a := by
  induction m with
  | nil => rfl
  | cons c m ih =>
    obtain ⟨k, w⟩ := c
    by_cases h : k = a
    · simpa [Memory.erase, h] using ih
    · simpa [Memory.erase, h, Memory.read] using ih

theorem Memory.read_erase_ne (m : Memory) {a b : Nat} (h : b ≠ a) :
    (Memory.erase m a).read fb b = Memory.read fb m b := by
  induction m with
  | nil => rfl
  | cons c m ih =>
    obtain ⟨k, w⟩ := c
    by_cases hk : k = a
    · have : k ≠ b := by omega
      simpa [Memory.erase, hk, Memory.read, h.symm] using ih
    · by_cases hkb : k = b
      · simp [Memory.erase, Memory.read, hkb, h]
      · simpa [Memory.erase, hk, Memory.read, hkb] using ih

/-- A read after a write: the value written at its address, the old byte elsewhere (R53, R63). -/
theorem Memory.read_write (m : Memory) (a b : Nat) (v : Byte) :
    (Memory.write fb m a v).read fb b = if b = a then v else Memory.read fb m b := by
  unfold Memory.write
  split
  · rename_i h
    by_cases hb : b = a
    · subst hb; simp [Memory.read_erase_same, h]
    · simp [Memory.read_erase_ne m hb, hb]
  · exact Memory.read_insert m a b v

/-! ### The canonical form -/

theorem Memory.mem_insert {m : Memory} {a : Nat} {v : Byte} {c : Host.Cell} (h : c ∈ Memory.insert m a v) :
    c = (a, v) ∨ c ∈ m := by
  induction m with
  | nil => simpa [Memory.insert] using h
  | cons d m ih =>
    obtain ⟨k, w⟩ := d
    unfold Memory.insert at h
    split at h
    · simpa using h
    · split at h
      · rcases List.mem_cons.mp h with h | h
        · exact .inl h
        · exact .inr (List.mem_cons_of_mem _ h)
      · rcases List.mem_cons.mp h with h | h
        · exact .inr (by simp [h])
        · rcases ih h with h | h
          · exact .inl h
          · exact .inr (List.mem_cons_of_mem _ h)

theorem Memory.pairwise_insert {m : Memory} (a : Nat) (v : Byte) (h : m.Pairwise fun c d => c.1 < d.1) :
    (Memory.insert m a v).Pairwise fun c d => c.1 < d.1 := by
  induction m with
  | nil => simp [Memory.insert]
  | cons d m ih =>
    obtain ⟨k, w⟩ := d
    obtain ⟨hk, hm⟩ := List.pairwise_cons.mp h
    unfold Memory.insert
    split
    · rename_i hlt
      refine List.pairwise_cons.mpr ⟨?_, h⟩
      intro c hc
      rcases List.mem_cons.mp hc with rfl | hc
      · exact hlt
      · exact lt_trans hlt (hk c hc)
    · split
      · rename_i _ heq
        subst heq
        exact List.pairwise_cons.mpr ⟨hk, hm⟩
      · rename_i hlt hne
        refine List.pairwise_cons.mpr ⟨?_, ih hm⟩
        intro c hc
        rcases Memory.mem_insert hc with rfl | hc
        · show k < a; omega
        · exact hk c hc

/-- Every write inside memory keeps the canonical form (log 8). -/
theorem Memory.wf_write {m : Memory} {a : Nat} {v : Byte} (h : Memory.wf fb m) (ha : a < Config.memSize) :
    Memory.wf fb (Memory.write fb m a v) := by
  unfold Memory.write
  split
  · refine ⟨h.1.sublist (List.filter_sublist), ?_⟩
    intro c hc
    exact h.2 c (List.mem_filter.mp hc).1
  · rename_i hv
    refine ⟨Memory.pairwise_insert a v h.1, ?_⟩
    intro c hc
    rcases Memory.mem_insert hc with rfl | hc
    · exact ⟨ha, hv⟩
    · exact h.2 c hc

theorem mem_programCells {a : Nat} {bs : List Byte} {c : Host.Cell} (h : c ∈ programCells fb a bs) :
    a ≤ c.1 ∧ c.1 < a + bs.length ∧ c.2 ≠ unlisted fb c.1 := by
  induction bs generalizing a with
  | nil => simp [programCells] at h
  | cons b bs ih =>
    unfold programCells at h
    simp only [List.length_cons]
    split at h
    · obtain ⟨h1, h2, h3⟩ := ih h
      exact ⟨by omega, by omega, h3⟩
    · rename_i hb
      rcases List.mem_cons.mp h with rfl | h
      · exact ⟨le_refl _, by simp, hb⟩
      · obtain ⟨h1, h2, h3⟩ := ih h
        exact ⟨by omega, by omega, h3⟩

theorem pairwise_programCells (a : Nat) (bs : List Byte) :
    (programCells fb a bs).Pairwise fun c d => c.1 < d.1 := by
  induction bs generalizing a with
  | nil => simp [programCells]
  | cons b bs ih =>
    unfold programCells
    split
    · exact ih _
    · refine List.pairwise_cons.mpr ⟨?_, ih _⟩
      intro c hc
      have := (mem_programCells hc).1
      show a < c.1
      omega

/-- A program image of an accepted size is in canonical form (R67, R250). -/
theorem wf_programCells {bs : List Byte} (h : bs.length ≤ Config.maxProgram) :
    Memory.wf fb (programCells fb Config.programBase bs) := by
  refine ⟨pairwise_programCells _ _, ?_⟩
  intro c hc
  obtain ⟨h1, h2, h3⟩ := mem_programCells hc
  refine ⟨?_, h3⟩
  simp only [Config.maxProgram, Config.programBase, Config.memSize] at *
  omega

/-- Reading a program image: its bytes, and the reset contents elsewhere (R67, R250). -/
theorem read_programCells (a b : Nat) (bs : List Byte) :
    Memory.read fb (programCells fb a bs) b =
      if a ≤ b then bs.getD (b - a) (unlisted fb b) else unlisted fb b := by
  induction bs generalizing a with
  | nil => simp [programCells, Memory.read]
  | cons c bs ih =>
    unfold programCells
    rcases Nat.lt_trichotomy b a with hlt | heq | hgt
    · have h1 : ¬ a ≤ b := by omega
      have h2 : ¬ a + 1 ≤ b := by omega
      have h3 : a ≠ b := by omega
      split <;> simp [Memory.read, ih, h2, h3]
    · subst heq
      have h2 : ¬ b + 1 ≤ b := by omega
      split
      · rename_i hc
        simp [ih, hc]
      · simp [Memory.read]
    · have h1 : a ≤ b := by omega
      have h2 : a + 1 ≤ b := by omega
      have h3 : a ≠ b := by omega
      have h4 : b - a = (b - (a + 1)) + 1 := by omega
      split <;> simp [Memory.read, ih, h2, h3, h4]

/-! ### One byte through the port -/

theorem State.read8_ok {s : State} {a : Nat} (h : a < 4096) : s.read8 a = .ok (s.readByte a) := by
  simp [State.read8, Config.memSize, Nat.not_le.mpr h]

theorem State.read8_outOfRange {s : State} {a : Nat} (h : 4096 ≤ a) : s.read8 a = .error ⟨.outOfRange, a⟩ := by
  simp [State.read8, Config.memSize, h]

theorem State.readWord_ok {s : State} {a : Nat} (h : a + 1 < 4096) :
    s.readWord a = .ok (wordOfBytes (s.readByte a) (s.readByte (a + 1))) := by
  simp [State.readWord, Config.memSize, Nat.not_le.mpr h]

/-- All that a one-byte store can do (R53). -/
theorem State.write8_cases (s : State) (a : Nat) (v : Byte) :
    (4096 ≤ a ∧ s.write8 a v = .error ⟨.outOfRange, a⟩) ∨
    (a < 0x200 ∧ s.write8 a v = .error ⟨.reservedWrite, a⟩) ∨
    (0x200 ≤ a ∧ a < 4096 ∧ s.write8 a v = .ok { s with mem := s.mem.write s.params.fontBase a v }) := by
  by_cases h1 : 4096 ≤ a
  · exact .inl ⟨h1, by simp [State.write8, Config.memSize, h1]⟩
  · by_cases h2 : a < 0x200
    · exact .inr (.inl ⟨h2, by simp [State.write8, Config.memSize, Config.programBase, h1, h2]⟩)
    · exact .inr (.inr ⟨by omega, by omega, by simp [State.write8, Config.memSize, Config.programBase, h1, h2]⟩)

/-! ### Blocks -/

/-- A block inside memory loads the bytes one after another (R57). -/
theorem State.loadBytes_ok (s : State) (a len : Nat) (h : a + len ≤ 4096) :
    s.loadBytes a len = .ok ((List.range len).map fun i => s.readByte (a + i)) := by
  induction len generalizing a with
  | zero => rfl
  | succ n ih =>
    rw [State.loadBytes, State.read8_ok (by omega), ih (a + 1) (by omega)]
    simp [List.range_succ_eq_map, Function.comp_def]
    intro i _
    congr 1
    omega

/-- A block that leaves memory raises OutOfRange at its lowest address of 4096 or more (R52, R58). -/
theorem State.loadBytes_outOfRange (s : State) (a len : Nat) (hl : 0 < len) (h : 4096 < a + len) :
    s.loadBytes a len = .error ⟨.outOfRange, max a 4096⟩ := by
  induction len generalizing a with
  | zero => omega
  | succ n ih =>
    rw [State.loadBytes]
    by_cases ha : 4096 ≤ a
    · rw [State.read8_outOfRange ha]
      simp [Nat.max_eq_left ha]
    · rw [State.read8_ok (by omega), ih (a + 1) (by omega) (by omega)]
      simp only [Except.error.injEq, Raised.mk.injEq, true_and]
      omega

/-- The state a block store leaves, byte by byte. -/
def State.withBytes (s : State) (a : Nat) : List Byte → State
  | [] => s
  | b :: bs => ({ s with mem := s.mem.write s.params.fontBase a b } : State).withBytes (a + 1) bs

/-- A block store changes memory alone. -/
theorem State.withBytes_frame (s : State) (a : Nat) (bs : List Byte) :
    s.withBytes a bs = { s with mem := (s.withBytes a bs).mem } := by
  induction bs generalizing s a with
  | nil => rfl
  | cons b bs ih => rw [State.withBytes, ih]

/-- What every byte reads as after a block store (R53, R57). -/
theorem State.readByte_withBytes (s : State) (a : Nat) (bs : List Byte) (c : Nat) :
    (s.withBytes a bs).readByte c = if a ≤ c then bs.getD (c - a) (s.readByte c) else s.readByte c := by
  induction bs generalizing s a with
  | nil => simp [State.withBytes]
  | cons b bs ih =>
    rw [State.withBytes, ih]
    have hr : ∀ d, State.readByte { s with mem := s.mem.write s.params.fontBase a b } d =
        if d = a then b else s.readByte d := fun d => Memory.read_write s.mem a d b
    simp only [hr]
    rcases Nat.lt_trichotomy c a with hlt | heq | hgt
    · have h1 : ¬ a ≤ c := by omega
      have h2 : ¬ a + 1 ≤ c := by omega
      have h3 : c ≠ a := by omega
      simp [h1, h2, h3]
    · subst heq
      simp
    · have h1 : a ≤ c := by omega
      have h2 : a + 1 ≤ c := by omega
      have h3 : c ≠ a := by omega
      have h4 : c - a = (c - (a + 1)) + 1 := by omega
      simp [h1, h2, h3, h4]

/-- A block store inside memory keeps the canonical form. -/
theorem State.wf_withBytes (s : State) (a : Nat) (bs : List Byte) (h : a + bs.length ≤ 4096)
    (hw : Memory.wf s.params.fontBase s.mem) : Memory.wf s.params.fontBase (s.withBytes a bs).mem := by
  induction bs generalizing s a with
  | nil => exact hw
  | cons b bs ih =>
    simp only [List.length_cons] at h
    exact ih { s with mem := s.mem.write s.params.fontBase a b } (a + 1) (by omega)
      (Memory.wf_write hw (by simp only [Config.memSize]; omega))

/-- A block inside the program region is stored (R53). -/
theorem State.storeBytes_ok (s : State) (a : Nat) (bs : List Byte) (h1 : 0x200 ≤ a) (h2 : a + bs.length ≤ 4096) :
    s.storeBytes a bs = .ok (s.withBytes a bs) := by
  induction bs generalizing s a with
  | nil => rfl
  | cons b bs ih =>
    simp only [List.length_cons] at h2
    rw [State.storeBytes]
    rcases State.write8_cases s a b with ⟨h, _⟩ | ⟨h, _⟩ | ⟨_, _, h⟩
    · omega
    · omega
    · rw [h]
      exact ih _ _ (by omega) (by omega)

/-- A block that leaves memory at the top raises OutOfRange at its lowest address of 4096 or more (R58, R183, R184). -/
theorem State.storeBytes_outOfRange (s : State) (a : Nat) (bs : List Byte) (h1 : 0x200 ≤ a) (hl : bs ≠ [])
    (h2 : 4096 < a + bs.length) : s.storeBytes a bs = .error ⟨.outOfRange, max a 4096⟩ := by
  induction bs generalizing s a with
  | nil => exact absurd rfl hl
  | cons b bs ih =>
    simp only [List.length_cons] at h2
    rw [State.storeBytes]
    rcases State.write8_cases s a b with ⟨h, he⟩ | ⟨h, _⟩ | ⟨_, hlt, he⟩
    · rw [he]
      simp [Nat.max_eq_left h]
    · omega
    · rw [he]
      have hne : bs ≠ [] := by
        rintro rfl
        simp at h2
        omega
      simp only [ih _ (a + 1) (by omega) hne (by omega), Except.error.injEq, Raised.mk.injEq, true_and]
      omega

/-- A block that begins in the reserved region raises ReservedWrite at its first byte (R59, R183, R184). -/
theorem State.storeBytes_reserved (s : State) (a : Nat) (bs : List Byte) (hl : bs ≠ []) (h : a < 0x200) :
    s.storeBytes a bs = .error ⟨.reservedWrite, a⟩ := by
  cases bs with
  | nil => exact absurd rfl hl
  | cons b bs =>
    rw [State.storeBytes]
    rcases State.write8_cases s a b with ⟨h', _⟩ | ⟨_, he⟩ | ⟨h', _, _⟩
    · omega
    · rw [he]
    · omega

/-- All that a block store can answer. -/
theorem State.storeBytes_cases (s : State) (a : Nat) (bs : List Byte) :
    (∃ e, s.storeBytes a bs = .error e) ∨
    (s.storeBytes a bs = .ok (s.withBytes a bs) ∧ (bs = [] ∨ (0x200 ≤ a ∧ a + bs.length ≤ 4096))) := by
  by_cases hl : bs = []
  · subst hl; exact .inr ⟨rfl, .inl rfl⟩
  · by_cases h1 : a < 0x200
    · exact .inl ⟨_, State.storeBytes_reserved s a bs hl h1⟩
    · by_cases h2 : a + bs.length ≤ 4096
      · exact .inr ⟨State.storeBytes_ok s a bs (by omega) h2, .inr ⟨by omega, h2⟩⟩
      · exact .inl ⟨_, State.storeBytes_outOfRange s a bs (by omega) hl (by omega)⟩

/-- All that a block load can answer. -/
theorem State.loadBytes_cases (s : State) (a len : Nat) :
    (∃ e, s.loadBytes a len = .error e) ∨
    (s.loadBytes a len = .ok ((List.range len).map fun i => s.readByte (a + i)) ∧ (len = 0 ∨ a + len ≤ 4096)) := by
  by_cases hl : len = 0
  · subst hl; exact .inr ⟨rfl, .inl rfl⟩
  · by_cases h : a + len ≤ 4096
    · exact .inr ⟨State.loadBytes_ok s a len h, .inr h⟩
    · exact .inl ⟨_, State.loadBytes_outOfRange s a len (by omega) (by omega)⟩

end Sys2Proof.Machine
end

