-- ==== Sys2Proof/Laws/Display.lean ====
section
/-! SUPPORT. The laws of the display: one inverted pixel, the draw of a list of pixels, and the pixels of a sprite
(spec/45_display.md R191, R192). -/

namespace Sys2Proof.Machine

@[simp] theorem Display.lit_blank (r : Fin 32) (c : Fin 64) : Display.blank.lit r c = false := by
  simp [Display.lit, Display.blank]

/-- Inverting a pixel changes that pixel alone (R191). -/
theorem Display.lit_toggle (d : Display) (r r' : Fin 32) (c c' : Fin 64) :
    (d.toggle r c).lit r' c' = if r' = r ∧ c' = c then !d.lit r c else d.lit r' c' := by
  unfold Display.lit Display.toggle
  rw [Vector.getElem_set]
  by_cases hr : r = r'
  · subst hr
    have hc' := c'.isLt
    have hc := c.isLt
    by_cases hcc : c' = c
    · subst hcc
      simp
    · have h : ¬ c'.val - c.val = 0 ∨ c'.val < c.val := by
        have : c'.val ≠ c.val := fun h => hcc (Fin.ext h)
        omega
      rcases h with h | h
      · simp [hcc, h]
      · simp [hcc, show c' < c from h]
  · have h1 : r.val ≠ r'.val := fun h => hr (Fin.ext h)
    simp [h1, Ne.symm hr]

/-- Drawing pixels none of which is named twice: each named one is inverted, the others stay, and the hit says whether a
named one was lit (R191). -/
theorem Display.draw_nodup (d : Display) (hit : Bool) (ps : List (Fin 32 × Fin 64)) (h : ps.Nodup) :
    (∀ r c, (d.draw hit ps).1.lit r c = (d.lit r c ^^ decide ((r, c) ∈ ps))) ∧
    ((d.draw hit ps).2 = true ↔ hit = true ∨ ∃ p ∈ ps, d.lit p.1 p.2 = true) := by
  induction ps generalizing d hit with
  | nil => simp [Display.draw]
  | cons p ps ih =>
    obtain ⟨pr, pc⟩ := p
    obtain ⟨hp, hps⟩ := List.nodup_cons.mp h
    obtain ⟨ih1, ih2⟩ := ih (d.toggle pr pc) (hit || d.lit pr pc) hps
    refine ⟨?_, ?_⟩
    · intro r c
      rw [Display.draw, ih1, Display.lit_toggle]
      by_cases he : r = pr ∧ c = pc
      · obtain ⟨rfl, rfl⟩ := he
        simp [hp]
      · have : ¬ ((r, c) = (pr, pc)) := by simpa using he
        simp [he]
    · rw [Display.draw, ih2]
      have hother : ∀ q ∈ ps, (d.toggle pr pc).lit q.1 q.2 = d.lit q.1 q.2 := by
        intro q hq
        rw [Display.lit_toggle, if_neg]
        rintro ⟨h1, h2⟩
        exact hp (by rwa [show (pr, pc) = q from Prod.ext h1.symm h2.symm])
      constructor
      · rintro (hh | ⟨q, hq, hl⟩)
        · rcases Bool.or_eq_true _ _ ▸ hh with hh | hh
          · exact .inl hh
          · exact .inr ⟨(pr, pc), by simp, hh⟩
        · exact .inr ⟨q, by simp [hq], by rwa [← hother q hq]⟩
      · rintro (hh | ⟨q, hq, hl⟩)
        · exact .inl (by simp [hh])
        · rcases List.mem_cons.mp hq with rfl | hq
          · exact .inl (by simpa using .inr hl)
          · exact .inr ⟨q, hq, by rwa [hother q hq]⟩

theorem mem_rowPixels {vx vr : Nat} {byte : Byte} {r : Fin 32} {c : Fin 64} :
    (r, c) ∈ rowPixels vx vr byte ↔
      ∃ b < 8, byte.getLsbD (7 - b) = true ∧ r.val = vr % 32 ∧ c.val = (vx + b) % 64 := by
  simp only [rowPixels, List.mem_map, List.mem_filter, List.mem_range, Prod.mk.injEq, Fin.ext_iff, Fin.val_ofNat]
  constructor
  · rintro ⟨b, ⟨hb, hl⟩, hr, hc⟩
    exact ⟨b, hb, hl, hr.symm, hc.symm⟩
  · rintro ⟨b, hb, hl, hr, hc⟩
    exact ⟨b, ⟨hb, hl⟩, hr.symm, hc.symm⟩

/-- The pixels a sprite's 1 bits land on (R192). -/
theorem mem_spritePixels {vx vy : Nat} {bytes : List Byte} {r : Fin 32} {c : Fin 64} :
    (r, c) ∈ spritePixels vx vy bytes ↔
      ∃ j, ∃ hj : j < bytes.length, ∃ b < 8, bytes[j].getLsbD (7 - b) = true ∧
        r.val = (vy + j) % 32 ∧ c.val = (vx + b) % 64 := by
  induction bytes generalizing vy with
  | nil => simp [spritePixels]
  | cons byte rest ih =>
    rw [spritePixels, List.mem_append, mem_rowPixels, ih]
    constructor
    · rintro (h | ⟨j, hj, h⟩)
      · exact ⟨0, by simp, by simpa using h⟩
      · refine ⟨j + 1, by simpa using hj, ?_⟩
        simpa [Nat.add_assoc, Nat.add_comm 1 j] using h
    · rintro ⟨j, hj, h⟩
      cases j with
      | zero => exact .inl (by simpa using h)
      | succ j =>
        refine .inr ⟨j, by simpa using hj, ?_⟩
        simpa [Nat.add_assoc, Nat.add_comm 1 j] using h

theorem nodup_rowPixels (vx vr : Nat) (byte : Byte) : (rowPixels vx vr byte).Nodup := by
  unfold rowPixels
  refine List.Nodup.map_on ?_ (List.nodup_range.filter _)
  intro a ha b hb h
  have ha8 : a < 8 := List.mem_range.mp (List.mem_filter.mp ha).1
  have hb8 : b < 8 := List.mem_range.mp (List.mem_filter.mp hb).1
  have hc := congrArg Fin.val (Prod.mk.inj h).2
  simp only [Fin.val_ofNat] at hc
  omega

/-- A sprite of at most 32 rows touches no pixel twice (R191, corner cases). -/
theorem nodup_spritePixels (vx vy : Nat) (bytes : List Byte) (h : bytes.length ≤ 32) :
    (spritePixels vx vy bytes).Nodup := by
  induction bytes generalizing vy with
  | nil => simp [spritePixels]
  | cons byte rest ih =>
    simp only [List.length_cons] at h
    rw [spritePixels]
    refine List.Nodup.append (nodup_rowPixels vx vy byte) (ih (vy + 1) (by omega)) ?_
    rintro ⟨r, c⟩ h1 h2
    obtain ⟨_, _, _, hr1, _⟩ := mem_rowPixels.mp h1
    obtain ⟨j, hj, _, _, _, hr2, _⟩ := mem_spritePixels.mp h2
    omega

end Sys2Proof.Machine
end

