-- ==== Sys2Proof/Laws/Operands.lean ====
section
/-! SUPPORT. What each operand form and each flag computation is, in numbers (spec/42_skips.md R154, 43_alu.md R166 to
R173, 44_index_memory.md R182 to R185), and what a block access can raise. -/

namespace Sys2Proof.Machine

/-! ### Operand forms -/

theorem lowNibble_val (v : Byte) : (lowNibble v).val = v.toNat % 16 := rfl

theorem State.keyDown_eq (s : State) (x : Reg) : s.keyDown x = s.keys.getLsbD ((s.getV x).toNat % 16) := rfl

theorem glyphAddress_toNat (fontBase : Fin 0x1B1) (d : Fin 16) :
    (glyphAddress fontBase d).toNat = fontBase.val + 5 * d.val := by
  have := fontBase.isLt
  simp [glyphAddress]
  omega

theorem decimalDigits_length (v : Byte) : (decimalDigits v).length = 3 := rfl

theorem State.regsUpTo_length (s : State) (x : Reg) : (s.regsUpTo x).length = x.val + 1 := by
  have := x.isLt
  simp [State.regsUpTo]

theorem State.regsUpTo_getD (s : State) (x r : Reg) (d : Byte) (h : r.val ≤ x.val) :
    (s.regsUpTo x).getD r.val d = s.getV r := by
  simp [State.regsUpTo, List.getD, State.getV, Nat.lt_succ_of_le h]

/-- `I` after a block transfer (R184, R185). -/
theorem State.indexAfterBlock_toNat (s : State) (x : Reg) :
    (s.indexAfterBlock x).toNat =
      if s.params.loadStoreIncrementI = true then (s.I.toNat + x.val + 1) % 65536 else s.I.toNat := by
  unfold State.indexAfterBlock
  split <;> simp

/-! ### Flags -/

theorem flagByte_toNat (b : Bool) : (flagByte b).toNat = if b = true then 1 else 0 := by cases b <;> rfl

theorem addFlagged_sum (a b : Byte) : (addFlagged a b).2.toNat = (a.toNat + b.toNat) % 256 := by
  simp [addFlagged]

theorem subFlagged_difference (a b : Byte) : (subFlagged a b).2.toNat = (a.toNat + 256 - b.toNat) % 256 := by
  simp [subFlagged]

theorem shrFlagged_result (b : Byte) : (shrFlagged b).2.toNat = b.toNat / 2 := by
  simp [shrFlagged, Nat.shiftRight_eq_div_pow]

theorem shlFlagged_result (b : Byte) : (shlFlagged b).2.toNat = b.toNat * 2 % 256 := by
  simp [shlFlagged, Nat.shiftLeft_eq]

/-! ### What a block access raises -/

theorem State.storeBytes_error (s : State) (a : Nat) (bs : List Byte) {e : Raised} (h : s.storeBytes a bs = .error e) :
    e.cause ≠ .none := by
  induction bs generalizing s a with
  | nil => simp [State.storeBytes] at h
  | cons b bs ih =>
    rw [State.storeBytes] at h
    rcases State.write8_cases s a b with ⟨_, h'⟩ | ⟨_, h'⟩ | ⟨_, _, h'⟩ <;> rw [h'] at h
    · cases h; simp
    · cases h; simp
    · exact ih _ _ h

theorem State.loadBytes_error (s : State) (a len : Nat) {e : Raised} (h : s.loadBytes a len = .error e) :
    e.cause ≠ .none := by
  rcases Nat.eq_zero_or_pos len with rfl | hl
  · cases h
  · by_cases h2 : a + len ≤ 4096
    · rw [State.loadBytes_ok _ _ _ h2] at h; cases h
    · rw [State.loadBytes_outOfRange _ _ _ hl (by omega)] at h; cases h; simp

end Sys2Proof.Machine
end

