-- ==== Sys2Proof/Laws/Ops.lean ====
section
/-! SUPPORT. What each shared operation can do: the PC sequencer, faults, the stack, the timers, Load
(spec/40_execution_cycle.md R112, R113, spec/60_exceptions.md R212). -/

namespace Sys2Proof.Machine

/-! ### The PC sequencer -/

theorem legalPC_iff (t : Nat) : legalPC t = true ↔ PcValue t := by
  simp only [legalPC, Bool.and_eq_true, beq_iff_eq, decide_eq_true_eq, and_assoc]

theorem State.setPC_legal (s after : State) {t : Nat} (h : PcValue t) :
    s.setPC t after = { after with pc := BitVec.ofNat 16 t } := by
  simp [State.setPC, (legalPC_iff t).mpr h]

theorem State.setPC_refused (s after : State) {t : Nat} (h : ¬ PcValue t) :
    s.setPC t after = s.raise ⟨.badPC, t⟩ := by
  have : ¬ legalPC t = true := fun hl => h ((legalPC_iff t).mp hl)
  simp [State.setPC, this]

/-- All that `SetPC` can do (R113). -/
theorem State.setPC_cases (s after : State) (t : Nat) :
    (PcValue t ∧ s.setPC t after = { after with pc := BitVec.ofNat 16 t }) ∨
    (¬ PcValue t ∧ s.setPC t after = s.raise ⟨.badPC, t⟩) := by
  by_cases h : PcValue t
  · exact .inl ⟨h, State.setPC_legal s after h⟩
  · exact .inr ⟨h, State.setPC_refused s after h⟩

theorem pc_plus (pc : Word) (k : Nat) : BitVec.ofNat 16 (pc.toNat + k) = pc + BitVec.ofNat 16 k := by
  apply BitVec.eq_of_toNat_eq
  simp

theorem State.advance_ok (s after : State) (h : s.CanAdvance) : s.advance after = { after with pc := s.pc + 2 } := by
  have h' : PcValue (s.pc.toNat + 2) := ⟨by have := h.1; omega, h.2⟩
  rw [State.advance, State.setPC_legal s after h', pc_plus]; rfl

theorem State.skip_ok (s after : State) (h : s.CanSkip) : s.skip after = { after with pc := s.pc + 4 } := by
  have h' : PcValue (s.pc.toNat + 4) := ⟨by have := h.1; omega, h.2⟩
  rw [State.skip, State.setPC_legal s after h', pc_plus]; rfl

/-- All that `Advance` can do (R112, R113). -/
theorem State.advance_cases (s after : State) :
    (PcValue (s.pc.toNat + 2) ∧ s.advance after = { after with pc := s.pc + 2 }) ∨
    (¬ PcValue (s.pc.toNat + 2) ∧ s.advance after = s.raise ⟨.badPC, s.pc.toNat + 2⟩) := by
  rcases State.setPC_cases s after (s.pc.toNat + 2) with ⟨h, he⟩ | h
  · exact .inl ⟨h, by rw [State.advance, he, pc_plus]; rfl⟩
  · exact .inr h

/-- All that the closing of a conditional skip can do (R112, R113, R150). -/
theorem State.skipIf_cases (s : State) (c : Bool) :
    (∃ k, (k = 2 ∨ k = 4) ∧ PcValue (s.pc.toNat + k) ∧ s.skipIf c = { s with pc := s.pc + BitVec.ofNat 16 k }) ∨
    (∃ k, (k = 2 ∨ k = 4) ∧ s.skipIf c = s.raise ⟨.badPC, s.pc.toNat + k⟩) := by
  cases c
  · rcases State.setPC_cases s s (s.pc.toNat + 2) with ⟨h, he⟩ | ⟨_, he⟩
    · exact .inl ⟨2, .inl rfl, h, by rw [← pc_plus]; exact he⟩
    · exact .inr ⟨2, .inl rfl, he⟩
  · rcases State.setPC_cases s s (s.pc.toNat + 4) with ⟨h, he⟩ | ⟨_, he⟩
    · exact .inl ⟨4, .inr rfl, h, by rw [← pc_plus]; exact he⟩
    · exact .inr ⟨4, .inr rfl, he⟩

/-- All that closing after a part that can raise can do (R111, R214). -/
theorem State.advanceOr_cases (s : State) (r : Except Raised State) :
    (∃ e, s.advanceOr r = s.raise e) ∨
    (∃ after, r = .ok after ∧ PcValue (s.pc.toNat + 2) ∧ s.advanceOr r = { after with pc := s.pc + 2 }) := by
  cases r with
  | error e => exact .inl ⟨e, rfl⟩
  | ok after =>
    rcases State.advance_cases s after with ⟨h, he⟩ | ⟨_, he⟩
    · exact .inr ⟨after, rfl, h, he⟩
    · exact .inl ⟨_, he⟩

/-! ### Faults -/

theorem State.raise_haltedBy (s : State) (c : Cause) (info : Nat) : HaltedBy s (s.raise ⟨c, info⟩) c info := rfl

/-! ### The stack (R24, R25) -/

theorem State.push_ok (s : State) (ret : Word) (h : s.SP.toNat < Config.stackDepth) :
    s.push ret = some { s with stack := s.stack.set s.SP.toNat ret h, SP := s.SP + 1 } := by
  simp only [State.push, dif_pos h]

theorem State.pop_ok (s : State) (h : s.SP.toNat - 1 < Config.stackDepth) :
    s.pop = some (s.stack[s.SP.toNat - 1], { s with SP := s.SP - 1 }) := by
  simp only [State.pop, dif_pos h]

/-- All that RET can do (R143). -/
theorem execRet_cases (s : State) :
    (s.SP = 0 ∧ execRet s = .next (s.raise ⟨.stackUnderflow, 0⟩)) ∨
    (execRet s = .fault .noStackEntry ∧ Config.stackDepth ≤ s.SP.toNat - 1) ∨
    (∃ h : s.SP.toNat - 1 < Config.stackDepth, s.SP ≠ 0 ∧
      execRet s = .next (s.setPC s.stack[s.SP.toNat - 1].toNat { s with SP := s.SP - 1 })) := by
  unfold execRet
  by_cases h0 : s.SP = 0
  · exact .inl ⟨h0, by simp [h0]⟩
  · by_cases h : s.SP.toNat - 1 < Config.stackDepth
    · refine .inr (.inr ⟨h, h0, ?_⟩)
      simp only [if_neg h0, State.pop_ok s h]
    · refine .inr (.inl ⟨?_, by omega⟩)
      simp only [if_neg h0, State.pop, dif_neg h]

/-- All that CALL can do (R142). -/
theorem execCall_cases (nnn : Addr12) (s : State) :
    (∃ e, execCall nnn s = .next (s.raise e)) ∨
    (execCall nnn s = .fault .noStackEntry ∧ Config.stackDepth < s.SP.toNat) ∨
    (∃ h : s.SP.toNat < Config.stackDepth, s.pc.toNat + 2 ≤ 0xFFE ∧
      execCall nnn s = .next (s.setPC nnn.toNat
        { s with stack := s.stack.set s.SP.toNat (BitVec.ofNat 16 (s.pc.toNat + 2)) h, SP := s.SP + 1 })) := by
  unfold execCall
  by_cases h1 : s.SP.toNat = Config.stackDepth
  · exact .inl ⟨_, by simp only [if_pos h1]; rfl⟩
  · by_cases h2 : 0xFFE < s.pc.toNat + 2
    · exact .inl ⟨_, by simp only [if_neg h1, if_pos h2]; rfl⟩
    · by_cases h3 : nnn.toNat % 2 = 1 ∨ nnn.toNat < Config.programBase
      · exact .inl ⟨_, by simp only [if_neg h1, if_neg h2, if_pos h3]; rfl⟩
      · by_cases h : s.SP.toNat < Config.stackDepth
        · refine .inr (.inr ⟨h, by omega, ?_⟩)
          simp only [if_neg h1, if_neg h2, if_neg h3, State.push_ok s _ h]
        · refine .inr (.inl ⟨?_, by omega⟩)
          simp only [if_neg h1, if_neg h2, if_neg h3, State.push, dif_neg h]

/-! ### Load (R250) -/

theorem State.load_accepted (s : State) {bytes : List Byte} (h : bytes.length ≤ 3584) :
    s.load bytes =
      { State.resetWith s.params with
        mem := programCells s.params.fontBase Config.programBase bytes
        schedule := s.schedule
        input := s.input
        draws := s.draws } := by
  simp [State.load, loadAccepted, Config.maxProgram, h]

theorem State.load_rejected (s : State) {bytes : List Byte} (h : 3584 < bytes.length) : s.load bytes = s := by
  simp [State.load, loadAccepted, Config.maxProgram, Nat.not_le.mpr h]

end Sys2Proof.Machine
end

