-- ==== Sys2Proof/Laws/Exec.lean ====
section
/-! SUPPORT. Everything an instruction can do, said once: `exec_cases` (spec/10_state.md R36, 40_execution_cycle.md R111,
R112, 60_exceptions.md R212, R213). -/

namespace Sys2Proof.Machine

/-- The answers of `exec`: a fault, a key wait, the stop of log 6, a return, a call, a block store, or an update of the
registers, `I`, the timers and the display by the instructions that own them. -/
inductive ExecResult (i : Instr) (s : State) : Result → Prop
  | faults (e : Raised) (he : e.cause ≠ .none) : ExecResult i s (.next (s.raise e))
  | waits (x : Reg) (hi : i = .ldVxK x) : ExecResult i s (.next { s with waitX := x, run := .waitingForKey })
  | stops (h : Config.stackDepth < s.SP.toNat) : ExecResult i s (.fault .noStackEntry)
  | returns (h : s.SP.toNat - 1 < Config.stackDepth) (h0 : s.SP ≠ 0) (hi : i = .ret)
      (hp : PcValue s.stack[s.SP.toNat - 1].toNat) :
      ExecResult i s (.next { s with SP := s.SP - 1, pc := s.stack[s.SP.toNat - 1] })
  | calls (nnn : Addr12) (h : s.SP.toNat < Config.stackDepth) (hi : i = .call nnn) (hr : s.pc.toNat + 2 ≤ 0xFFE)
      (hp : PcValue nnn.toNat) :
      ExecResult i s
        (.next { s with stack := s.stack.set s.SP.toNat (s.pc + 2) h, SP := s.SP + 1, pc := nnn.setWidth 16 })
  | stores (bs : List Byte) (newI : Word) (hlo : 0x200 ≤ s.I.toNat) (hhi : s.I.toNat + bs.length ≤ 4096)
      (hp : PcValue (s.pc.toNat + 2))
      (hi : ∀ a, s.I.toNat ≤ a → a < s.I.toNat + bs.length → storesTo i s a) (hI : newI = s.I ∨ writesIndex i s) :
      ExecResult i s (.next { s with mem := (s.withBytes s.I.toNat bs).mem, I := newI, pc := s.pc + 2 })
  | updates (V : Vector Byte 16) (newI : Word) (DT ST : Byte) (disp : Display) (pc : Word) (hp : PcValue pc.toNat)
      (hV : ∀ r : Reg, ¬ writesReg i r → V[r.val] = s.getV r) (hI : newI = s.I ∨ writesIndex i s)
      (hDT : DT = s.DT ∨ ∃ x, i = .ldDTVx x) (hST : ST = s.ST ∨ ∃ x, i = .ldSTVx x)
      (hdisp : disp = s.disp ∨ i = .cls ∨ ∃ x y n, i = .drw x y n) :
      ExecResult i s (.next { s with V := V, I := newI, DT := DT, ST := ST, disp := disp, pc := pc })

theorem toNat_pc_add {pc : Word} {k : Nat} (h : pc.toNat + k ≤ 0xFFE) :
    (pc + BitVec.ofNat 16 k).toNat = pc.toNat + k := by
  simp
  omega

/-- Closing by `Advance` after an update that touches no other field (R112). -/
theorem ExecResult.of_advance {i : Instr} {s : State} (after : State)
    (hk : after = { s with V := after.V, I := after.I, DT := after.DT, ST := after.ST, disp := after.disp })
    (hV : ∀ r : Reg, ¬ writesReg i r → after.getV r = s.getV r) (hI : after.I = s.I ∨ writesIndex i s)
    (hDT : after.DT = s.DT ∨ ∃ x, i = .ldDTVx x) (hST : after.ST = s.ST ∨ ∃ x, i = .ldSTVx x)
    (hdisp : after.disp = s.disp ∨ i = .cls ∨ ∃ x y n, i = .drw x y n) :
    ExecResult i s (.next (s.advance after)) := by
  rcases State.advance_cases s after with ⟨hp, h⟩ | ⟨_, h⟩
  · rw [h, hk]
    have hp' : PcValue (s.pc + 2).toNat := by rw [show (2 : Word) = BitVec.ofNat 16 2 from rfl, toNat_pc_add hp.2.2]; exact hp
    exact .updates after.V after.I after.DT after.ST after.disp (s.pc + 2) hp' hV hI hDT hST hdisp
  · rw [h]
    exact .faults _ (by simp)

/-- Closing with another `pc` and no other change (R112, R113). -/
theorem ExecResult.of_setPC {i : Instr} {s : State} (t : Nat) : ExecResult i s (.next (s.setPC t s)) := by
  rcases State.setPC_cases s s t with ⟨hp, h⟩ | ⟨_, h⟩
  · rw [h]
    have hp' : PcValue (BitVec.ofNat 16 t).toNat := by
      have := hp.2.2
      rw [show (BitVec.ofNat 16 t).toNat = t by simp; omega]
      exact hp
    exact .updates s.V s.I s.DT s.ST s.disp _ hp' (fun _ _ => rfl) (.inl rfl) (.inl rfl) (.inl rfl) (.inl rfl)
  · rw [h]
    exact .faults _ (by simp)

theorem ExecResult.of_skipIf {i : Instr} {s : State} (c : Bool) : ExecResult i s (.next (s.skipIf c)) := by
  cases c
  · exact .of_setPC _
  · exact .of_setPC _

/-- Closing after a block store (R112, R183, R184). -/
theorem ExecResult.of_store {i : Instr} {s : State} (bs : List Byte) (newI : Word) (hbs : bs ≠ [])
    (hi : ∀ a, s.I.toNat ≤ a → a < s.I.toNat + bs.length → storesTo i s a) (hI : newI = s.I ∨ writesIndex i s) :
    ExecResult i s (.next (s.advanceOr (match s.storeBytes s.I.toNat bs with
      | .error e => .error e
      | .ok after => .ok { after with I := newI }))) := by
  rcases State.storeBytes_cases s s.I.toNat bs with ⟨e, h⟩ | ⟨h, hin⟩
  · rw [h]
    exact .faults e (State.storeBytes_error _ _ _ h)
  · obtain ⟨hlo, hhi⟩ := hin.resolve_left hbs
    have hf : ({ s.withBytes s.I.toNat bs with I := newI } : State) =
        { s with mem := (s.withBytes s.I.toNat bs).mem, I := newI } := by
      rw [State.withBytes_frame]
    rw [h]
    simp only [State.advanceOr, hf]
    rcases State.advance_cases s { s with mem := (s.withBytes s.I.toNat bs).mem, I := newI } with ⟨hp, h⟩ | ⟨_, h⟩
    · rw [h]
      exact .stores bs newI hlo hhi hp hi hI
    · rw [h]
      exact .faults _ (by simp)

theorem State.indexAfterBlock_frame {i : Instr} (s : State) (x : Reg)
    (hi : i = .storeRegs x ∨ i = .loadRegs x) : s.indexAfterBlock x = s.I ∨ writesIndex i s := by
  unfold State.indexAfterBlock
  by_cases hb : s.params.loadStoreIncrementI = true
  · exact .inr (.inr (.inr (.inr ⟨hi.imp (fun h => ⟨x, h⟩) (fun h => ⟨x, h⟩), hb⟩)))
  · exact .inl (by simp [hb])

theorem execRet_result (s : State) : ExecResult .ret s (execRet s) := by
  rcases execRet_cases s with ⟨_, h⟩ | ⟨h, hd⟩ | ⟨hd, h0, h⟩
  · rw [h]
    exact .faults _ (by simp)
  · rw [h]
    exact .stops (by simp only [Config.stackDepth] at *; omega)
  · rw [h]
    rcases State.setPC_cases s { s with SP := s.SP - 1 } s.stack[s.SP.toNat - 1].toNat with ⟨hp, h2⟩ | ⟨_, h2⟩
    · rw [h2]
      simp only [BitVec.ofNat_toNat, BitVec.setWidth_eq]
      exact .returns hd h0 rfl hp
    · rw [h2]
      exact .faults _ (by simp)

theorem execCall_result (nnn : Addr12) (s : State) : ExecResult (.call nnn) s (execCall nnn s) := by
  unfold execCall
  by_cases h1 : s.SP.toNat = Config.stackDepth
  · simp only [if_pos h1]
    exact .faults _ (by simp)
  by_cases h2 : 0xFFE < s.pc.toNat + 2
  · simp only [if_neg h1, if_pos h2]
    exact .faults _ (by simp)
  by_cases h3 : nnn.toNat % 2 = 1 ∨ nnn.toNat < Config.programBase
  · simp only [if_neg h1, if_neg h2, if_pos h3]
    exact .faults _ (by simp)
  by_cases h4 : s.SP.toNat < Config.stackDepth
  · have hp : PcValue nnn.toNat := by
      have := nnn.isLt
      simp only [Config.programBase] at h3
      refine ⟨?_, ?_, ?_⟩ <;> omega
    have hw : BitVec.ofNat 16 nnn.toNat = nnn.setWidth 16 := by
      apply BitVec.eq_of_toNat_eq
      simp
    simp only [if_neg h1, if_neg h2, if_neg h3, State.push_ok s _ h4, State.setPC_legal _ _ hp, pc_plus, hw]
    exact .calls nnn h4 rfl (by omega) hp
  · simp only [if_neg h1, if_neg h2, if_neg h3, State.push, dif_neg h4]
    exact .stops (by omega)

theorem execLoadRegs_result (x : Reg) (s : State) : ExecResult (.loadRegs x) s (execLoadRegs x s) := by
  unfold execLoadRegs
  rcases State.loadBytes_cases s s.I.toNat (x.val + 1) with ⟨e, h⟩ | ⟨h, _⟩
  · rw [h]
    exact .faults e (State.loadBytes_error _ _ _ h)
  · rw [h]
    have hlen : ((List.range (x.val + 1)).map fun i => s.readByte (s.I.toNat + i)).length = x.val + 1 := by simp
    generalize (List.range (x.val + 1)).map (fun i => s.readByte (s.I.toNat + i)) = l at hlen
    have hV : ∀ r : Reg, ¬ writesReg (.loadRegs x) r → (s.setRegs l).getV r = s.getV r := by
      intro r hr
      rw [State.getV_setRegs]
      exact List.getD_eq_default _ _ (by simp only [writesReg] at hr; omega)
    exact .of_advance { s.setRegs l with I := s.indexAfterBlock x } rfl hV
      (State.indexAfterBlock_frame s x (.inr rfl)) (.inl (by simp only [State.setRegs_DT]))
      (.inl (by simp only [State.setRegs_ST])) (.inl (by simp only [State.setRegs_disp]))

theorem execDrw_result (x y : Reg) (n : Fin 16) (s : State) : ExecResult (.drw x y n) s (execDrw x y n s) := by
  unfold execDrw
  rcases State.loadBytes_cases s s.I.toNat n.val with ⟨e, h⟩ | ⟨h, _⟩
  · rw [h]
    exact .faults e (State.loadBytes_error _ _ _ h)
  · rw [h]
    simp only [State.advanceOr]
    generalize s.disp.draw false _ = drawn
    exact .of_advance { s.setV VF (flagByte drawn.2) with disp := drawn.1 } rfl
      (fun r hr => State.getV_setV_ne s _ hr) (.inl rfl) (.inl rfl) (.inl rfl) (.inr (.inr ⟨x, y, n, rfl⟩))

theorem ExecResult.of_setV {i : Instr} {s : State} (x : Reg) (v : Byte) (h : ∀ r, ¬ writesReg i r → r ≠ x) :
    ExecResult i s (.next (s.advance (s.setV x v))) :=
  .of_advance _ rfl (fun r hr => State.getV_setV_ne s v (h r hr)) (.inl rfl) (.inl rfl) (.inl rfl) (.inl rfl)

theorem ExecResult.of_writeFlagged {i : Instr} {s : State} (x : Reg) (fr : Byte × Byte)
    (h : ∀ r, ¬ writesReg i r → r ≠ x ∧ r ≠ VF) : ExecResult i s (.next (s.advance (s.writeFlagged x fr))) :=
  .of_advance _ rfl (fun r hr => by rw [State.getV_writeFlagged, if_neg (h r hr).1, if_neg (h r hr).2]) (.inl rfl)
    (.inl rfl) (.inl rfl) (.inl rfl)

/-- Everything an instruction can do. -/
theorem exec_cases (i : Instr) (s : State) : ExecResult i s (exec i s) := by
  have hf : ∀ {x r : Reg}, ¬ (r = x ∨ r = VF) → r ≠ x ∧ r ≠ VF := fun h => not_or.mp h
  cases i with
  | cls => exact .of_advance _ rfl (fun _ _ => rfl) (.inl rfl) (.inl rfl) (.inl rfl) (.inr (.inl rfl))
  | ret => exact execRet_result s
  | sys nnn =>
    show ExecResult _ _ (execSys nnn s)
    unfold execSys
    cases s.params.sysPolicy
    · exact .of_setPC _
    · exact .faults _ (by simp)
  | jp nnn => exact .of_setPC _
  | call nnn => exact execCall_result nnn s
  | seImm x kk => exact .of_skipIf _
  | sneImm x kk => exact .of_skipIf _
  | seReg x y => exact .of_skipIf _
  | ldImm x kk => exact .of_setV x _ fun _ h => h
  | addImm x kk => exact .of_setV x _ fun _ h => h
  | ldReg x y => exact .of_setV x _ fun _ h => h
  | orReg x y => exact .of_setV x _ fun _ h => h
  | andReg x y => exact .of_setV x _ fun _ h => h
  | xorReg x y => exact .of_setV x _ fun _ h => h
  | addReg x y => exact .of_writeFlagged x _ fun _ h => hf h
  | sub x y => exact .of_writeFlagged x _ fun _ h => hf h
  | shr x y => exact .of_writeFlagged x _ fun _ h => hf h
  | subn x y => exact .of_writeFlagged x _ fun _ h => hf h
  | shl x y => exact .of_writeFlagged x _ fun _ h => hf h
  | sneReg x y => exact .of_skipIf _
  | ldI nnn => exact .of_advance _ rfl (fun _ _ => rfl) (.inr (.inl ⟨_, rfl⟩)) (.inl rfl) (.inl rfl) (.inl rfl)
  | jpV0 nnn => exact .of_setPC _
  | rnd x kk => exact .of_setV x _ fun _ h => h
  | drw x y n => exact execDrw_result x y n s
  | skp x => exact .of_skipIf _
  | sknp x => exact .of_skipIf _
  | ldVxDT x => exact .of_setV x _ fun _ h => h
  | ldVxK x => exact .waits x rfl
  | ldDTVx x => exact .of_advance _ rfl (fun _ _ => rfl) (.inl rfl) (.inr ⟨_, rfl⟩) (.inl rfl) (.inl rfl)
  | ldSTVx x => exact .of_advance _ rfl (fun _ _ => rfl) (.inl rfl) (.inl rfl) (.inr ⟨_, rfl⟩) (.inl rfl)
  | addI x => exact .of_advance _ rfl (fun _ _ => rfl) (.inr (.inr (.inl ⟨_, rfl⟩))) (.inl rfl) (.inl rfl) (.inl rfl)
  | ldF x =>
    exact .of_advance _ rfl (fun _ _ => rfl) (.inr (.inr (.inr (.inl ⟨_, rfl⟩)))) (.inl rfl) (.inl rfl) (.inl rfl)
  | ldB x =>
    have h := ExecResult.of_store (i := .ldB x) (s := s) (decimalDigits (s.getV x)) s.I (by simp [decimalDigits])
      (fun a h1 h2 => .inl ⟨x, rfl, h1, by rw [decimalDigits_length] at h2; omega⟩) (.inl rfl)
    show ExecResult _ _ (execLdB x s)
    unfold execLdB
    rcases State.storeBytes_cases s s.I.toNat (decimalDigits (s.getV x)) with ⟨e, he⟩ | ⟨he, _⟩ <;> rw [he] at h ⊢
    · exact h
    · have hI : ({ s.withBytes s.I.toNat (decimalDigits (s.getV x)) with I := s.I } : State) =
          s.withBytes s.I.toNat (decimalDigits (s.getV x)) := by
        rw [State.withBytes_frame]
      simp only at h hI
      rwa [hI] at h
  | storeRegs x =>
    exact .of_store (s.regsUpTo x) (s.indexAfterBlock x)
      (List.ne_nil_of_length_pos (by rw [State.regsUpTo_length]; omega))
      (fun a h1 h2 => .inr ⟨x, rfl, h1, by rw [State.regsUpTo_length] at h2; omega⟩)
      (State.indexAfterBlock_frame s x (.inl rfl))
  | loadRegs x => exact execLoadRegs_result x s

/-- A Step that fetches a word which decodes runs that instruction, after the inputs are presented (R111, R118). -/
theorem stepEvent_running {inp : Option Inputs} {s : State} {w : Word} {i : Instr} (hr : s.run = .running)
    (hw : s.readWord s.pc.toNat = .ok w) (hd : decode w = .ok i) : stepEvent inp s = exec i (s.present inp) := by
  simp only [stepEvent, hr, fetch, hw, hd]

/-- All that a Step can do. -/
theorem stepEvent_cases (inp : Option Inputs) (s : State) :
    (s.run ≠ .running ∧ stepEvent inp s = .next s) ∨
    (s.run = .running ∧ ∃ e, e.cause ≠ .none ∧ stepEvent inp s = .next (s.raise e)) ∨
    (s.run = .running ∧ ∃ w i, s.readWord s.pc.toNat = .ok w ∧ decode w = .ok i ∧
      stepEvent inp s = exec i (s.present inp)) := by
  cases hr : s.run with
  | waitingForKey => exact .inl ⟨by simp, by simp only [stepEvent, hr]⟩
  | halted => exact .inl ⟨by simp, by simp only [stepEvent, hr]⟩
  | running =>
    refine .inr ?_
    cases hw : s.readWord s.pc.toNat with
    | error e =>
      refine .inl ⟨rfl, e, ?_, by simp only [stepEvent, hr, fetch, hw]⟩
      unfold State.readWord at hw
      split at hw
      · cases hw; simp
      · cases hw
    | ok w =>
      cases hd : decode w with
      | error e => exact .inl ⟨rfl, ⟨.unknownOpcode, w.toNat⟩, by simp, by simp only [stepEvent, hr, fetch, hw, hd]⟩
      | ok i => exact .inr ⟨rfl, w, i, rfl, hd, stepEvent_running hr hw hd⟩

/-! ### The host's endless sequence of events -/

/-- A machine that is handed one event takes that event (R110). -/
theorem step_single (s : State) (e : Event) : step { s with schedule := [e] } = applyEvent e { s with schedule := [] } :=
  rfl

/-- One event more, where the machine has come so far. -/
theorem State.afterEvents_succ {s t : State} {host : Nat → Event} {n : Nat} (h : s.afterEvents host n = some t) :
    s.afterEvents host (n + 1) =
      match applyEvent (host n) { t with schedule := [] } with
      | .next u => some u
      | .fault _ => none
      | .refused _ => none := by
  rw [State.afterEvents, h]
  rfl

end Sys2Proof.Machine
end

