-- ==== Sys2Proof/Laws/PerInstr.lean ====
section
/-! SUPPORT. What holds of every instruction as syntax, one lemma per constructor. -/

namespace Sys2Proof.Laws.EncodesItsRow

/-- The word of an instruction matches the row of the opcode map that builds this instruction from it
(spec/30_encoding.md R84, R85, R89). -/
def Statement (i : Instr) : Prop := ∃ r ∈ opcodeTable, r.matchesWord (encode i) = true ∧ r.build (encode i) = i

theorem of_index {i : Instr} (k : Nat) (hk : k < opcodeTable.length)
    (hm : opcodeTable[k].matchesWord (encode i) = true) (hb : opcodeTable[k].build (encode i) = i) : Statement i :=
  ⟨opcodeTable[k], List.getElem_mem hk, hm, hb⟩

theorem cls : Statement .cls :=
  of_index 0 (by decide) (by decide) (by decide)

theorem ret : Statement .ret :=
  of_index 1 (by decide) (by decide) (by decide)

theorem sys (nnn : Addr12) : Statement (.sys nnn) :=
  of_index 2 (by decide)
    (matches_wordNNN (by decide) nnn rfl rfl)
    (congrArg Instr.sys (fieldNNN_wordNNN (by decide) nnn))

theorem jp (nnn : Addr12) : Statement (.jp nnn) :=
  of_index 3 (by decide)
    (matches_wordNNN (by decide) nnn rfl rfl)
    (congrArg Instr.jp (fieldNNN_wordNNN (by decide) nnn))

theorem call (nnn : Addr12) : Statement (.call nnn) :=
  of_index 4 (by decide)
    (matches_wordNNN (by decide) nnn rfl rfl)
    (congrArg Instr.call (fieldNNN_wordNNN (by decide) nnn))

theorem seImm (x : Reg) (kk : Byte) : Statement (.seImm x kk) :=
  of_index 5 (by decide)
    (matches_wordXKK (by decide) x kk rfl rfl)
    (congrArg₂ Instr.seImm (fieldX_wordXKK (by decide) x kk) (fieldKK_wordXKK (by decide) x kk))

theorem sneImm (x : Reg) (kk : Byte) : Statement (.sneImm x kk) :=
  of_index 6 (by decide)
    (matches_wordXKK (by decide) x kk rfl rfl)
    (congrArg₂ Instr.sneImm (fieldX_wordXKK (by decide) x kk) (fieldKK_wordXKK (by decide) x kk))

theorem seReg (x : Reg) (y : Reg) : Statement (.seReg x y) :=
  of_index 7 (by decide)
    (matches_wordXY (by decide) (by decide) x y rfl rfl)
    (congrArg₂ Instr.seReg (fieldX_wordXYN (by decide) (by decide) x y) (fieldY_wordXYN (by decide) (by decide) x y))

theorem ldImm (x : Reg) (kk : Byte) : Statement (.ldImm x kk) :=
  of_index 8 (by decide)
    (matches_wordXKK (by decide) x kk rfl rfl)
    (congrArg₂ Instr.ldImm (fieldX_wordXKK (by decide) x kk) (fieldKK_wordXKK (by decide) x kk))

theorem addImm (x : Reg) (kk : Byte) : Statement (.addImm x kk) :=
  of_index 9 (by decide)
    (matches_wordXKK (by decide) x kk rfl rfl)
    (congrArg₂ Instr.addImm (fieldX_wordXKK (by decide) x kk) (fieldKK_wordXKK (by decide) x kk))

theorem ldReg (x : Reg) (y : Reg) : Statement (.ldReg x y) :=
  of_index 10 (by decide)
    (matches_wordXY (by decide) (by decide) x y rfl rfl)
    (congrArg₂ Instr.ldReg (fieldX_wordXYN (by decide) (by decide) x y) (fieldY_wordXYN (by decide) (by decide) x y))

theorem orReg (x : Reg) (y : Reg) : Statement (.orReg x y) :=
  of_index 11 (by decide)
    (matches_wordXY (by decide) (by decide) x y rfl rfl)
    (congrArg₂ Instr.orReg (fieldX_wordXYN (by decide) (by decide) x y) (fieldY_wordXYN (by decide) (by decide) x y))

theorem andReg (x : Reg) (y : Reg) : Statement (.andReg x y) :=
  of_index 12 (by decide)
    (matches_wordXY (by decide) (by decide) x y rfl rfl)
    (congrArg₂ Instr.andReg (fieldX_wordXYN (by decide) (by decide) x y) (fieldY_wordXYN (by decide) (by decide) x y))

theorem xorReg (x : Reg) (y : Reg) : Statement (.xorReg x y) :=
  of_index 13 (by decide)
    (matches_wordXY (by decide) (by decide) x y rfl rfl)
    (congrArg₂ Instr.xorReg (fieldX_wordXYN (by decide) (by decide) x y) (fieldY_wordXYN (by decide) (by decide) x y))

theorem addReg (x : Reg) (y : Reg) : Statement (.addReg x y) :=
  of_index 14 (by decide)
    (matches_wordXY (by decide) (by decide) x y rfl rfl)
    (congrArg₂ Instr.addReg (fieldX_wordXYN (by decide) (by decide) x y) (fieldY_wordXYN (by decide) (by decide) x y))

theorem sub (x : Reg) (y : Reg) : Statement (.sub x y) :=
  of_index 15 (by decide)
    (matches_wordXY (by decide) (by decide) x y rfl rfl)
    (congrArg₂ Instr.sub (fieldX_wordXYN (by decide) (by decide) x y) (fieldY_wordXYN (by decide) (by decide) x y))

theorem shr (x : Reg) (y : Reg) : Statement (.shr x y) :=
  of_index 16 (by decide)
    (matches_wordXY (by decide) (by decide) x y rfl rfl)
    (congrArg₂ Instr.shr (fieldX_wordXYN (by decide) (by decide) x y) (fieldY_wordXYN (by decide) (by decide) x y))

theorem subn (x : Reg) (y : Reg) : Statement (.subn x y) :=
  of_index 17 (by decide)
    (matches_wordXY (by decide) (by decide) x y rfl rfl)
    (congrArg₂ Instr.subn (fieldX_wordXYN (by decide) (by decide) x y) (fieldY_wordXYN (by decide) (by decide) x y))

theorem shl (x : Reg) (y : Reg) : Statement (.shl x y) :=
  of_index 18 (by decide)
    (matches_wordXY (by decide) (by decide) x y rfl rfl)
    (congrArg₂ Instr.shl (fieldX_wordXYN (by decide) (by decide) x y) (fieldY_wordXYN (by decide) (by decide) x y))

theorem sneReg (x : Reg) (y : Reg) : Statement (.sneReg x y) :=
  of_index 19 (by decide)
    (matches_wordXY (by decide) (by decide) x y rfl rfl)
    (congrArg₂ Instr.sneReg (fieldX_wordXYN (by decide) (by decide) x y) (fieldY_wordXYN (by decide) (by decide) x y))

theorem ldI (nnn : Addr12) : Statement (.ldI nnn) :=
  of_index 20 (by decide)
    (matches_wordNNN (by decide) nnn rfl rfl)
    (congrArg Instr.ldI (fieldNNN_wordNNN (by decide) nnn))

theorem jpV0 (nnn : Addr12) : Statement (.jpV0 nnn) :=
  of_index 21 (by decide)
    (matches_wordNNN (by decide) nnn rfl rfl)
    (congrArg Instr.jpV0 (fieldNNN_wordNNN (by decide) nnn))

theorem rnd (x : Reg) (kk : Byte) : Statement (.rnd x kk) :=
  of_index 22 (by decide)
    (matches_wordXKK (by decide) x kk rfl rfl)
    (congrArg₂ Instr.rnd (fieldX_wordXKK (by decide) x kk) (fieldKK_wordXKK (by decide) x kk))

theorem drw (x : Reg) (y : Reg) (n : Fin 16) : Statement (.drw x y n) :=
  of_index 23 (by decide)
    (matches_wordXYN (by decide) n.isLt x y rfl rfl)
    (congr (congrArg₂ Instr.drw (fieldX_wordXYN (by decide) n.isLt x y) (fieldY_wordXYN (by decide) n.isLt x y)) (fieldN_wordXYN (by decide) x y n))

theorem skp (x : Reg) : Statement (.skp x) :=
  of_index 24 (by decide)
    (matches_wordX (by decide) (by decide) x rfl rfl)
    (congrArg Instr.skp (fieldX_wordX (by decide) (by decide) x))

theorem sknp (x : Reg) : Statement (.sknp x) :=
  of_index 25 (by decide)
    (matches_wordX (by decide) (by decide) x rfl rfl)
    (congrArg Instr.sknp (fieldX_wordX (by decide) (by decide) x))

theorem ldVxDT (x : Reg) : Statement (.ldVxDT x) :=
  of_index 26 (by decide)
    (matches_wordX (by decide) (by decide) x rfl rfl)
    (congrArg Instr.ldVxDT (fieldX_wordX (by decide) (by decide) x))

theorem ldVxK (x : Reg) : Statement (.ldVxK x) :=
  of_index 27 (by decide)
    (matches_wordX (by decide) (by decide) x rfl rfl)
    (congrArg Instr.ldVxK (fieldX_wordX (by decide) (by decide) x))

theorem ldDTVx (x : Reg) : Statement (.ldDTVx x) :=
  of_index 28 (by decide)
    (matches_wordX (by decide) (by decide) x rfl rfl)
    (congrArg Instr.ldDTVx (fieldX_wordX (by decide) (by decide) x))

theorem ldSTVx (x : Reg) : Statement (.ldSTVx x) :=
  of_index 29 (by decide)
    (matches_wordX (by decide) (by decide) x rfl rfl)
    (congrArg Instr.ldSTVx (fieldX_wordX (by decide) (by decide) x))

theorem addI (x : Reg) : Statement (.addI x) :=
  of_index 30 (by decide)
    (matches_wordX (by decide) (by decide) x rfl rfl)
    (congrArg Instr.addI (fieldX_wordX (by decide) (by decide) x))

theorem ldF (x : Reg) : Statement (.ldF x) :=
  of_index 31 (by decide)
    (matches_wordX (by decide) (by decide) x rfl rfl)
    (congrArg Instr.ldF (fieldX_wordX (by decide) (by decide) x))

theorem ldB (x : Reg) : Statement (.ldB x) :=
  of_index 32 (by decide)
    (matches_wordX (by decide) (by decide) x rfl rfl)
    (congrArg Instr.ldB (fieldX_wordX (by decide) (by decide) x))

theorem storeRegs (x : Reg) : Statement (.storeRegs x) :=
  of_index 33 (by decide)
    (matches_wordX (by decide) (by decide) x rfl rfl)
    (congrArg Instr.storeRegs (fieldX_wordX (by decide) (by decide) x))

theorem loadRegs (x : Reg) : Statement (.loadRegs x) :=
  of_index 34 (by decide)
    (matches_wordX (by decide) (by decide) x rfl rfl)
    (congrArg Instr.loadRegs (fieldX_wordX (by decide) (by decide) x))

end Sys2Proof.Laws.EncodesItsRow
end

