-- ==== Sys2Proof/Tests/Slice0.lean ====
section
/-! SUPPORT. Tests of one step each, with the expected results of spec/95_test_vectors.md (S, F, K, A, M, G, T, E, L rows),
and for every obligation with hypotheses a state that meets them. -/

namespace Sys2Proof.Tests

open Sys2Proof Sys2Proof.Machine

/-! ### Well-formedness and decoding -/

/-- The one check of WellFormed refuses the two words that are no SYS (R87), and nothing else is refused. -/
theorem test_wellFormed :
    (Instr.sys 0x0E0).wellFormed = false ∧ (Instr.sys 0x0EE).wellFormed = false ∧ (Instr.sys 0x0E1).wellFormed = true ∧
    (Instr.drw 15 15 0).wellFormed = true := by decide

/-- R85, rows of classes 0 to 2, bit by bit. -/
theorem test_decode_flow :
    decode 0b0000000011100000 = .ok .cls ∧ decode 0b0000000011101110 = .ok .ret ∧
    decode 0b0000000100100011 = .ok (.sys 0x123) ∧ decode 0b0001101010111100 = .ok (.jp 0xABC) ∧
    decode 0b0010001100000000 = .ok (.call 0x300) ∧ decode 0b1011001100000001 = .ok (.jpV0 0x301) := by decide

/-- R85, the skips, bit by bit. -/
theorem test_decode_skips :
    decode 0b0011001101000010 = .ok (.seImm 3 0x42) ∧ decode 0b0100001101000011 = .ok (.sneImm 3 0x43) ∧
    decode 0b0101000100100000 = .ok (.seReg 1 2) ∧ decode 0b1001000100100000 = .ok (.sneReg 1 2) ∧
    decode 0b1110010110011110 = .ok (.skp 5) ∧ decode 0b1110010110100001 = .ok (.sknp 5) := by decide

/-- R85, loads and ALU, bit by bit. -/
theorem test_decode_alu :
    decode 0b0110101000000101 = .ok (.ldImm 0xA 0x05) ∧ decode 0b0111000111111111 = .ok (.addImm 1 0xFF) ∧
    decode 0b1000000100100000 = .ok (.ldReg 1 2) ∧ decode 0b1000000100100001 = .ok (.orReg 1 2) ∧
    decode 0b1000000100100010 = .ok (.andReg 1 2) ∧ decode 0b1000000100100011 = .ok (.xorReg 1 2) ∧
    decode 0b1000000100100100 = .ok (.addReg 1 2) ∧ decode 0b1000000100100101 = .ok (.sub 1 2) ∧
    decode 0b1000000100100110 = .ok (.shr 1 2) ∧ decode 0b1000000100100111 = .ok (.subn 1 2) ∧
    decode 0b1000000100101110 = .ok (.shl 1 2) ∧ decode 0b1100001100001111 = .ok (.rnd 3 0x0F) := by decide

/-- R85, index, memory, display, timers and keys, bit by bit; E5. -/
theorem test_decode_rest :
    decode 0b1010000100100011 = .ok (.ldI 0x123) ∧ decode 0b1101000100101010 = .ok (.drw 1 2 10) ∧
    decode 0b1111001000000111 = .ok (.ldVxDT 2) ∧ decode 0b1111010100001010 = .ok (.ldVxK 5) ∧
    decode 0b1111000100010101 = .ok (.ldDTVx 1) ∧ decode 0b1111000100011000 = .ok (.ldSTVx 1) ∧
    decode 0b1111001000011110 = .ok (.addI 2) ∧ decode 0b1111000100101001 = .ok (.ldF 1) ∧
    decode 0b1111001100110011 = .ok (.ldB 3) ∧ decode 0b1111001001010101 = .ok (.storeRegs 2) ∧
    decode 0b1111001001100101 = .ok (.loadRegs 2) := by decide

/-- E3, K8: words that match nothing (R86). -/
theorem test_decode_unknown :
    decode 0xE000 = .error (.unknownOpcode 0xE000) ∧
    decode 0xF000 = .error (.unknownOpcode 0xF000) ∧
    decode 0xFFFF = .error (.unknownOpcode 0xFFFF) ∧
    decode 0x5001 = .error (.unknownOpcode 0x5001) ∧
    decode 0x9001 = .error (.unknownOpcode 0x9001) ∧
    decode 0x8008 = .error (.unknownOpcode 0x8008) ∧
    decode 0x5121 = .error (.unknownOpcode 0x5121) := by decide

/-- K12, K18, A42, M27. -/
theorem test_decode_unknown_more :
    decode 0x912F = .error (.unknownOpcode 0x912F) ∧
    decode 0xE59F = .error (.unknownOpcode 0xE59F) ∧
    decode 0xE0A2 = .error (.unknownOpcode 0xE0A2) ∧
    decode 0x812D = .error (.unknownOpcode 0x812D) ∧
    decode 0xF130 = .error (.unknownOpcode 0xF130) ∧
    decode 0xF175 = .error (.unknownOpcode 0xF175) ∧
    decode 0xF302 = .error (.unknownOpcode 0xF302) := by decide

/-- E6: the first byte is the high one (R54); fewer than two bytes are no instruction (R80). -/
theorem test_decode_bytes :
    decodeBytes [0x12, 0x34, 0x56] = .ok (.jp 0x234, [0x56]) ∧ decodeBytes [0x12] = .error .truncated ∧
    decodeTableWord 16 0x8124 = some (.addReg 1 2) ∧ decodeTableWord 16 0x5121 = none := by decide

/-- The encoder's words, from R85 and R89. -/
theorem test_encode :
    encode (.drw 1 2 10) = 0xD12A ∧ encode (.ldVxK 5) = 0xF50A ∧ encode (.shl 1 2) = 0x812E ∧
    encode (.jpV0 0xFFF) = 0xBFFF ∧ encode (.sneReg 1 2) = 0x9120 ∧ encode (.addImm 15 1) = 0x7F01 := by decide

/-! ### Helpers -/

/-- The state after reset with a word at `pc`, which the next step runs. -/
def start (w : Nat) : State := State.reset.withFetchWord 16 w

/-- The same with another `pc`. -/
def startAt (pc : Word) (w : Nat) : State := ({ State.reset with pc := pc } : State).withFetchWord 16 w

/-- The same with the inputs of the Step given (R118). -/
def startWith (keys : BitVec 16) (rnd : Byte) (w : Nat) : State := { start w with schedule := [.step keys rnd] }

/-- What a step leaves, where it answers a next state. -/
def after {α : Type} (s : State) (f : State → α) : Option α :=
  match step s with
  | .next t => some (f t)
  | .fault _ => none
  | .refused _ => none

/-- Registers named by their numbers, then `pc`. -/
def regs (rs : List Reg) (s : State) : List Byte × Word := (rs.map s.getV, s.pc)

/-- Bytes stored by hand. -/
def poke (s : State) (a : Nat) (bs : List Byte) : State :=
  match s.storeBytes a bs with
  | .ok t => t
  | .error _ => s

/-- Bytes read back. -/
def peek (s : State) (a len : Nat) : List Byte := (List.range len).map fun k => s.readByte (a + k)

/-- The halted state's record, with the run state. -/
def halt (s : State) : RunState × FaultRecord := (s.run, s.fault)

/-- A display with the named pixels lit, column first. -/
def lit (ps : List (Fin 64 × Fin 32)) : Display := ps.foldl (fun d p => d.toggle p.2 p.1) Display.blank

/-! ### Control flow -/

/-- F1, F4, F5. -/
theorem test_jp : after (start 0x1ABC) State.pc = some 0xABC ∧ after (start 0x1FFE) State.pc = some 0xFFE ∧
    after (start 0x1200) State.pc = some 0x200 := by decide

/-- F2, F3, F6: the fault record is cause, `pc`, word, info (R212). -/
theorem test_jp_faults :
    after (start 0x1ABD) halt = some (.halted, ⟨.badPC, 0x200, 0x1ABD, 0xABD⟩) ∧
    after (start 0x1100) halt = some (.halted, ⟨.badPC, 0x200, 0x1100, 0x100⟩) ∧
    after (start 0x1FFF) halt = some (.halted, ⟨.badPC, 0x200, 0x1FFF, 0xFFF⟩) := by decide

/-- S4, F7. -/
theorem test_call :
    after (start 0x2300) (fun t => (t.SP, t.stack[0], t.pc)) = some (1, 0x0202, 0x300) ∧
    after { start 0x2300 with SP := 15 } (fun t => (t.SP, t.stack[15], t.pc)) = some (16, 0x0202, 0x300) := by decide

/-- S5, F9, F10, F11. -/
theorem test_call_faults :
    after { start 0x2301 with SP := 16 } halt = some (.halted, ⟨.stackOverflow, 0x200, 0x2301, 16⟩) ∧
    after (startAt 0xFFE 0x2300) (fun t => (t.fault.cause, t.fault.info, t.SP)) = some (.badPC, 0x1000, 0) ∧
    after (start 0x2301) (fun t => (t.fault.cause, t.fault.info, t.SP, t.stack[0])) = some (.badPC, 0x301, 0, 0) := by
  decide

/-- F13, F14: the popped entry stays in the array. -/
theorem test_ret :
    after { startAt 0x300 0x00EE with SP := 1, stack := (State.reset.stack).set 0 0x0202 }
      (fun t => (t.pc, t.SP, t.stack[0])) = some (0x202, 0, 0x0202) ∧
    after { startAt 0xFFE 0x00EE with SP := 2, stack := ((State.reset.stack).set 0 0x0202).set 1 0x040A }
      (fun t => (t.pc, t.SP)) = some (0x40A, 1) := by decide

/-- F12. -/
theorem test_ret_underflow : after (start 0x00EE) halt = some (.halted, ⟨.stackUnderflow, 0x200, 0x00EE, 0⟩) := by decide

/-- F15, F18, F19. -/
theorem test_jpV0 : after ((start 0xB300).setV 0 4) State.pc = some 0x304 ∧
    after ((start 0xB1FE).setV 0 2) State.pc = some 0x200 ∧ after ((start 0xB1FF).setV 0 0xFF) State.pc = some 0x2FE := by
  decide

/-- F16, F17: the sum is not masked. -/
theorem test_jpV0_faults :
    after ((start 0xB300).setV 0 5) (fun t => (t.fault.cause, t.fault.info)) = some (.badPC, 0x305) ∧
    after ((start 0xBFFE).setV 0 2) (fun t => (t.fault.cause, t.fault.info)) = some (.badPC, 0x1000) := by decide

/-- F20, F22, F24. -/
theorem test_sys : after (start 0x0123) State.pc = some 0x202 ∧ after (start 0x00E1) State.pc = some 0x202 ∧
    after (startAt 0xFFE 0x0000) halt = some (.halted, ⟨.badPC, 0xFFE, 0x0000, 0x1000⟩) := by decide

/-- F23. -/
theorem test_sys_fatal :
    after { start 0x0123 with params := { Config.defaultParams with sysPolicy := .fatal } } halt =
      some (.halted, ⟨.sysTrap, 0x200, 0x0123, 0x123⟩) := by decide

/-! ### Skips -/

/-- K1, K2, K20. -/
theorem test_seImm : after ((start 0x3342).setV 3 0x42) State.pc = some 0x204 ∧
    after ((start 0x3343).setV 3 0x42) State.pc = some 0x202 ∧ after (startAt 0xFFC 0x3301) State.pc = some 0xFFE := by
  decide

/-- K19, K21, K22: the refused target is the info. -/
theorem test_seImm_faults :
    after (startAt 0xFFC 0x3300) (fun t => t.fault) = some ⟨.badPC, 0xFFC, 0x3300, 0x1000⟩ ∧
    after (startAt 0xFFE 0x3300) (fun t => t.fault) = some ⟨.badPC, 0xFFE, 0x3300, 0x1002⟩ ∧
    after (startAt 0xFFE 0x3301) (fun t => t.fault) = some ⟨.badPC, 0xFFE, 0x3301, 0x1000⟩ := by decide

/-- K3, K4. -/
theorem test_sneImm : after ((start 0x4342).setV 3 0x42) State.pc = some 0x202 ∧
    after ((start 0x4343).setV 3 0x42) State.pc = some 0x204 := by decide

/-- K5, K6, K7. -/
theorem test_seReg : after (((start 0x5120).setV 1 7).setV 2 7) State.pc = some 0x204 ∧
    after (((start 0x5120).setV 1 7).setV 2 8) State.pc = some 0x202 ∧
    after ((start 0x5110).setV 1 9) State.pc = some 0x204 := by decide

/-- K9, K10, K11. -/
theorem test_sneReg : after (((start 0x9120).setV 1 7).setV 2 8) State.pc = some 0x204 ∧
    after (((start 0x9120).setV 1 7).setV 2 7) State.pc = some 0x202 ∧
    after ((start 0x9110).setV 1 9) State.pc = some 0x202 := by decide

/-- K13, K14, K15: the key index is `V5 & 0xF`. -/
theorem test_skp : after ((startWith 0x0400 0 0xE59E).setV 5 0x0A) State.pc = some 0x204 ∧
    after ((startWith 0x0000 0 0xE59E).setV 5 0x0A) State.pc = some 0x202 ∧
    after ((startWith 0x0400 0 0xE59E).setV 5 0x1A) State.pc = some 0x204 := by decide

/-- K16, K17. -/
theorem test_sknp : after ((startWith 0x0000 0 0xE5A1).setV 5 0x0A) State.pc = some 0x204 ∧
    after ((startWith 0x0400 0 0xE5A1).setV 5 0x0A) State.pc = some 0x202 := by decide

/-! ### Loads and ALU -/

/-- S2, A2. -/
theorem test_ldImm : after (start 0x6A05) (regs [0xA, 0xF]) = some ([0x05, 0x00], 0x202) ∧
    after (start 0x6FFF) (regs [0xF]) = some ([0xFF], 0x202) := by decide

/-- F25: precise at the top of memory. -/
theorem test_ldImm_top : after (startAt 0xFFE 0x6A05) (fun t => (t.fault, t.getV 0xA)) =
    some (⟨.badPC, 0xFFE, 0x6A05, 0x1000⟩, 0x00) := by decide

/-- A3, A4, A5. -/
theorem test_addImm : after ((start 0x7102).setV 1 0xFF) (regs [1, 0xF]) = some ([0x01, 0x00], 0x202) ∧
    after (start 0x71FF) (regs [1]) = some ([0xFF], 0x202) ∧
    after ((start 0x7F01).setV 0xF 0xFF) (regs [0xF]) = some ([0x00], 0x202) := by decide

/-- A6. -/
theorem test_ldReg : after ((start 0x8120).setV 2 0x7C) (regs [1, 2]) = some ([0x7C, 0x7C], 0x202) := by decide

/-- A7: `VF` stays. -/
theorem test_orReg : after ((((start 0x8121).setV 1 0xF0).setV 2 0x0F).setV 0xF 7) (regs [1, 0xF]) =
    some ([0xFF, 0x07], 0x202) := by decide

/-- A8. -/
theorem test_andReg : after (((start 0x8122).setV 1 0xF0).setV 2 0x3C) (regs [1, 2]) = some ([0x30, 0x3C], 0x202) := by
  decide

/-- A9, A10. -/
theorem test_xorReg : after (((start 0x8123).setV 1 0xFF).setV 2 0x0F) (regs [1]) = some ([0xF0], 0x202) ∧
    after ((start 0x8113).setV 1 0x5A) (regs [1]) = some ([0x00], 0x202) := by decide

/-- S3, A12, A13, A14. -/
theorem test_addReg : after (((start 0x8124).setV 1 0xFF).setV 2 1) (regs [1, 2, 0xF]) = some ([0, 1, 1], 0x202) ∧
    after (((start 0x8124).setV 1 0x7F).setV 2 1) (regs [1, 0xF]) = some ([0x80, 0], 0x202) ∧
    after (((start 0x8124).setV 1 0xFF).setV 2 0xFF) (regs [1, 0xF]) = some ([0xFE, 1], 0x202) ∧
    after ((start 0x8114).setV 1 0x80) (regs [1, 0xF]) = some ([0x00, 1], 0x202) := by decide

/-- A30, A31, A34: the flag first, the result second. -/
theorem test_addReg_VF : after (((start 0x8F14).setV 0xF 0x10).setV 1 0x20) (regs [0xF]) = some ([0x30], 0x202) ∧
    after (((start 0x8F14).setV 0xF 0xF0).setV 1 0x20) (regs [0xF]) = some ([0x10], 0x202) ∧
    after (((start 0x81F4).setV 0xF 1).setV 1 0xFF) (regs [1, 0xF]) = some ([0x00, 1], 0x202) := by decide

/-- A15, A16, A17, A18. -/
theorem test_sub : after (((start 0x8125).setV 1 5).setV 2 3) (regs [1, 0xF]) = some ([2, 1], 0x202) ∧
    after (((start 0x8125).setV 1 3).setV 2 5) (regs [1, 0xF]) = some ([0xFE, 0], 0x202) ∧
    after (((start 0x8125).setV 1 5).setV 2 5) (regs [1, 0xF]) = some ([0, 1], 0x202) ∧
    after ((start 0x8125).setV 2 1) (regs [1, 0xF]) = some ([0xFF, 0], 0x202) := by decide

/-- A19, A32, A38. -/
theorem test_sub_VF : after ((start 0x8115).setV 1 0x77) (regs [1, 0xF]) = some ([0, 1], 0x202) ∧
    after (((start 0x8F15).setV 0xF 5).setV 1 3) (regs [0xF]) = some ([2], 0x202) ∧
    after (((start 0x81F5).setV 0xF 1).setV 1 1) (regs [1, 0xF]) = some ([0, 1], 0x202) := by decide

/-- A20, A21, A22. -/
theorem test_subn : after (((start 0x8127).setV 1 3).setV 2 5) (regs [1, 0xF]) = some ([2, 1], 0x202) ∧
    after (((start 0x8127).setV 1 5).setV 2 3) (regs [1, 0xF]) = some ([0xFE, 0], 0x202) ∧
    after (((start 0x8127).setV 1 5).setV 2 5) (regs [1, 0xF]) = some ([0, 1], 0x202) := by decide

/-- A37. -/
theorem test_subn_VF : after (((start 0x8F17).setV 0xF 3).setV 1 5) (regs [0xF]) = some ([2], 0x202) := by decide

/-- A23, A24, A25: the source is `V[y]`. -/
theorem test_shr : after (((start 0x8126).setV 1 0xAA).setV 2 5) (regs [1, 2, 0xF]) = some ([2, 5, 1], 0x202) ∧
    after ((start 0x8126).setV 2 0x80) (regs [1, 0xF]) = some ([0x40, 0], 0x202) ∧
    after ((start 0x8116).setV 1 3) (regs [1, 0xF]) = some ([1, 1], 0x202) := by decide

/-- A33, A35. -/
theorem test_shr_VF : after ((start 0x8F26).setV 2 5) (regs [0xF]) = some ([2], 0x202) ∧
    after ((start 0x8FF6).setV 0xF 6) (regs [0xF]) = some ([3], 0x202) := by decide

/-- A27, A28, A29. -/
theorem test_shl : after ((start 0x812E).setV 2 0x81) (regs [1, 2, 0xF]) = some ([2, 0x81, 1], 0x202) ∧
    after ((start 0x812E).setV 2 0x40) (regs [1, 0xF]) = some ([0x80, 0], 0x202) ∧
    after ((start 0x811E).setV 1 0xFF) (regs [1, 0xF]) = some ([0xFE, 1], 0x202) := by decide

/-- A36. -/
theorem test_shl_VF : after ((start 0x8FFE).setV 0xF 0x81) (regs [0xF]) = some ([2], 0x202) := by decide

/-- A39, A40, A41. -/
theorem test_rnd : after (startWith 0 0xA7 0xC30F) (regs [3]) = some ([0x07], 0x202) ∧
    after (startWith 0 0xA7 0xC3FF) (regs [3]) = some ([0xA7], 0x202) ∧
    after ((startWith 0 0xA7 0xC300).setV 3 0x55) (regs [3]) = some ([0x00], 0x202) := by decide

/-! ### Address register and memory -/

/-- M1, M2. -/
theorem test_ldI : after (start 0xA123) (fun t => (t.I, t.pc)) = some (0x0123, 0x202) ∧
    after (start 0xAFFF) (fun t => t.I) = some 0x0FFF := by decide

/-- M3, M4, M5. -/
theorem test_addI : after { (start 0xF21E).setV 2 0x10 with I := 0x300 } (fun t => (t.I, t.getV VF)) = some (0x310, 0) ∧
    after { (start 0xF21E).setV 2 1 with I := 0xFFF } (fun t => (t.I, t.getV VF, t.pc)) = some (0x1000, 0, 0x202) ∧
    after { (start 0xF21E).setV 2 2 with I := 0xFFFF } (fun t => t.I) = some 0x0001 := by decide

/-- M6, M7, M8. -/
theorem test_ldF : after ((start 0xF129).setV 1 0x0A) (fun t => (t.I, t.pc)) = some (0x0082, 0x202) ∧
    after ((start 0xF129).setV 1 0x1A) State.I = some 0x0082 ∧ after (start 0xF129) State.I = some 0x0050 ∧
    after ((start 0xF129).setV 1 0x0F) State.I = some 0x009B := by decide

/-- M9, M11. -/
theorem test_ldB : after { (start 0xF333).setV 3 254 with I := 0x300 } (fun t => (peek t 0x300 3, t.I, t.getV 3, t.pc)) =
      some ([2, 5, 4], 0x300, 254, 0x202) ∧
    after { (start 0xF333).setV 3 255 with I := 0xFFD } (fun t => peek t 0xFFD 3) = some [2, 5, 5] := by decide

/-- M12, M13, M14, M15: nothing is stored. -/
theorem test_ldB_faults :
    after { (start 0xF333).setV 3 7 with I := 0xFFE } (fun t => (t.fault.cause, t.fault.info, peek t 0xFFE 2)) =
      some (.outOfRange, 0x1000, [0, 0]) ∧
    after { start 0xF333 with I := 0x2000 } (fun t => (t.fault.cause, t.fault.info)) = some (.outOfRange, 0x2000) ∧
    after { start 0xF333 with I := 0x1FF } (fun t => (t.fault.cause, t.fault.info, peek t 0x200 2)) =
      some (.reservedWrite, 0x1FF, [0xF3, 0x33]) ∧
    after { start 0xF333 with I := 0x1FE } (fun t => (t.fault.cause, t.fault.info)) = some (.reservedWrite, 0x1FE) := by
  decide

/-- M16, M26. -/
theorem test_storeRegs :
    after { ((((start 0xF255).setV 0 1).setV 1 2).setV 2 3).setV 3 4 with I := 0x300 }
      (fun t => (peek t 0x300 4, t.I, t.pc)) = some ([1, 2, 3, 0], 0x300, 0x202) ∧
    after { start 0xF255 with I := 0x300, params := { Config.defaultParams with loadStoreIncrementI := true } }
      (fun t => t.I) = some 0x303 := by decide

/-- M18, M19, M21: data faults come before BadPC. -/
theorem test_storeRegs_faults :
    after { (start 0xFF55).setV 0 9 with I := 0xFF1 } (fun t => (t.fault.cause, t.fault.info, peek t 0xFF1 1)) =
      some (.outOfRange, 0x1000, [0]) ∧
    after { start 0xF055 with I := 0x1FF } (fun t => (t.fault.cause, t.fault.info)) = some (.reservedWrite, 0x1FF) ∧
    after { startAt 0xFFE 0xF155 with I := 0xFFF } (fun t => (t.fault.cause, t.fault.info)) =
      some (.outOfRange, 0x1000) := by decide

/-- M22, M23. -/
theorem test_loadRegs :
    after { poke ((start 0xF265).setV 3 0x77) 0x300 [2, 5, 4, 9] with I := 0x300 } (fun t => (regs [0, 1, 2, 3] t, t.I)) =
      some (([2, 5, 4, 0x77], 0x202), 0x300) ∧
    after { start 0xF165 with I := 0x050 } (regs [0, 1]) = some ([0xF0, 0x90], 0x202) := by decide

/-- M24, M25. -/
theorem test_loadRegs_edges :
    after { poke (start 0xF065) 0xFFF [0xAB] with I := 0xFFF } (regs [0]) = some ([0xAB], 0x202) ∧
    after { (start 0xFF65).setV 0 9 with I := 0xFF1 } (fun t => (t.fault.cause, t.fault.info, t.getV 0)) =
      some (.outOfRange, 0x1000, 9) := by decide

/-! ### Display -/

/-- S1, G11. -/
theorem test_cls : after { (start 0x00E0).setV VF 3 with disp := lit [(3, 3), (63, 31)] }
    (fun t => (t.disp, t.getV VF, t.pc)) = some (Display.blank, 3, 0x202) := by decide

/-- G12: precise. -/
theorem test_cls_top : after { startAt 0xFFE 0x00E0 with disp := lit [(3, 3)] } (fun t => (t.fault.cause, t.disp)) =
    some (.badPC, lit [(3, 3)]) := by decide

/-- G2, G3, G4, G5. -/
theorem test_drw :
    after { poke (start 0xD011) 0x300 [0x80] with I := 0x300, disp := lit [(0, 0)] } (fun t => (t.disp, t.getV VF)) =
      some (Display.blank, 1) ∧
    after { poke (start 0xD011) 0x300 [0xC0] with I := 0x300, disp := lit [(1, 0)] } (fun t => (t.disp, t.getV VF)) =
      some (lit [(0, 0)], 1) ∧
    after { poke (((start 0xD011).setV 0 60).setV 1 31) 0x300 [0xFF] with I := 0x300 } (fun t => (t.disp, t.getV VF)) =
      some (lit [(60, 31), (61, 31), (62, 31), (63, 31), (0, 31), (1, 31), (2, 31), (3, 31)], 0) ∧
    after { poke (((start 0xD012).setV 0 64).setV 1 31) 0x300 [0x80, 0x80] with I := 0x300 } (fun t => t.disp) =
      some (lit [(0, 31), (0, 0)]) := by decide

/-- G6, G7, G8, G10. -/
theorem test_drw_edges :
    after { poke ((start 0xDFF1).setV VF 5) 0x300 [0x80] with I := 0x300 } (fun t => (t.disp, t.getV VF)) =
      some (lit [(5, 5)], 0) ∧
    after { (start 0xD010).setV VF 1 with I := 0xFFFF } (fun t => (t.disp, t.getV VF, t.pc)) =
      some (Display.blank, 0, 0x202) ∧
    after { (start 0xD012).setV VF 1 with I := 0xFFF } (fun t => (t.fault.cause, t.fault.info, t.disp, t.getV VF)) =
      some (.outOfRange, 0x1000, Display.blank, 1) ∧
    after { ((start 0xD015).setV 0 0x42).setV 1 0x21 with I := 0x050 } (fun t => (t.disp, t.getV VF)) =
      some (lit [(2, 1), (3, 1), (4, 1), (5, 1), (2, 2), (5, 2), (2, 3), (5, 3), (2, 4), (5, 4), (2, 5), (3, 5), (4, 5),
        (5, 5)], 0) := by decide

/-! ### Timers, keys and the other events -/

/-- T3. -/
theorem test_ldVxDT : after { start 0xF207 with DT := 0x3B } (fun t => (t.getV 2, t.DT, t.pc)) =
    some (0x3B, 0x3B, 0x202) := by decide

/-- T1. -/
theorem test_ldDTVx : after ((start 0xF115).setV 1 0x3C) (fun t => (t.DT, t.ST, t.pc)) = some (0x3C, 0, 0x202) := by decide

/-- T6. -/
theorem test_ldSTVx : after ((start 0xF118).setV 1 2) (fun t => (t.getSound, t.getDelay, t.toneOn, t.pc)) =
    some (2, 0, true, 0x202) := by decide

/-- T8, and T13's Step: no advance, so no fault at the top. -/
theorem test_ldVxK : after (start 0xF50A) (fun t => (t.run, t.waitX, t.pc)) = some (.waitingForKey, 5, 0x200) ∧
    after (startAt 0xFFE 0xF50A) (fun t => (t.run, t.pc)) = some (.waitingForKey, 0xFFE) := by decide

/-- T11, T14, T9: SupplyKey ends the wait, a Step with the key held does not. -/
theorem test_supplyKey :
    after { start 0xF50A with run := .waitingForKey, waitX := 5, schedule := [.supplyKey 0xB] }
      (fun t => (t.getV 5, t.pc, t.run)) = some (0x0B, 0x202, .running) ∧
    after { start 0xFF0A with run := .waitingForKey, waitX := 15, schedule := [.supplyKey 0xF] }
      (fun t => (t.getV VF, t.pc)) = some (0x0F, 0x202) ∧
    after { start 0xF50A with run := .waitingForKey, waitX := 5, schedule := [.step 0x0800 0] }
      (fun t => (t.getV 5, t.pc, t.run)) = some (0, 0x200, .waitingForKey) := by decide

/-- T13's SupplyKey, S6. -/
theorem test_supplyKey_edges :
    after { startAt 0xFFE 0xF50A with run := .waitingForKey, waitX := 5, schedule := [.supplyKey 1] }
      (fun t => (halt t, t.getV 5)) = some ((.halted, ⟨.badPC, 0xFFE, 0xF50A, 0x1000⟩), 0) ∧
    after { State.reset with schedule := [.supplyKey 7] } id = some State.reset := by decide

/-- T2, T4, T5, T7. -/
theorem test_tick : after { State.reset with DT := 0x3C, schedule := [.tick] } (fun t => (t.DT, t.ST)) = some (0x3B, 0) ∧
    after { State.reset with DT := 1, ST := 3, schedule := [.tick] } (fun t => (t.DT, t.ST)) = some (0, 2) ∧
    after { State.reset with run := .halted, DT := 4, schedule := [.tick] } (fun t => (t.DT, t.run)) =
      some (3, .halted) := by decide

/-- L1, L4, L6: a halted machine with another history. -/
theorem test_load :
    after { (poke (start 0x1100) 0x204 [7]).setV 3 9 with run := .halted, SP := 4, schedule := [.load [0xAB]] }
      (fun t => (peek t 0x200 5, t.getV 3, t.SP, t.run, t.pc)) = some ([0xAB, 0, 0, 0, 0], 0, 0, .running, 0x200) ∧
    after { State.reset with schedule := [.load []] } (fun t => (peek t 0x050 5, peek t 0x09B 5, peek t 0x04F 1, peek t 0x0A0 1)) =
      some ([0xF0, 0x90, 0x90, 0x90, 0xF0], [0xF0, 0x80, 0xF0, 0x80, 0x80], [0], [0]) := by decide

/-- L1's state meets the launch premise `Loaded` (R257). -/
theorem test_loaded : (State.reset.load [0x6A, 0x05]).Loaded [0x6A, 0x05] := ⟨by decide, by decide⟩

/-- P4's first events: the wait begins, and the key supplied ends it. -/
theorem test_afterEvents :
    (((start 0xF00A).afterEvents (fun n => if n = 0 then .step 0 0 else .supplyKey 3) 2).map fun t =>
      (t.getV 0, t.pc, t.run)) = some (0x03, 0x202, .running) := by decide

/-- The premises of R257 can be met together: Tick and SupplyKey in turn. -/
theorem test_premises :
    TicksFair (fun n => if n % 2 = 0 then .tick else .supplyKey 1) ∧
    (start 0xF00A).KeySupplied (fun n => if n % 2 = 0 then .tick else .supplyKey 1) ∧
    NoReload (fun n => if n % 2 = 0 then .tick else .supplyKey 1) := by
  refine ⟨fun n => ⟨2 * n, by omega, by simp⟩, fun n _ _ _ => ⟨2 * n + 1, 1, by omega, by simp⟩, ?_⟩
  intro n bytes
  show (if n % 2 = 0 then Event.tick else .supplyKey 1) ≠ .load bytes
  split <;> simp

/-- K8, E3: an unknown word halts the machine with the word as info (R86). -/
theorem test_unknown : after (start 0x5121) halt = some (.halted, ⟨.unknownOpcode, 0x200, 0x5121, 0x5121⟩) := by decide

/-- S11: a halted machine does nothing. -/
theorem test_halted : after { start 0x6A05 with run := .halted } (fun t => (t.getV 0xA, t.pc, t.run)) =
    some (0, 0x200, .halted) := by decide

/-- The results the host reads (R110, R212, R225). -/
theorem test_eventResult :
    eventResult (.step 0 0) (start 0x1ABD) = some (.faulted ⟨.badPC, 0x200, 0x1ABD, 0xABD⟩) ∧
    eventResult (.step 0 0) (start 0x6A05) = some .ok ∧ eventResult .tick State.reset = some .ok ∧
    (lit [(63, 31)] |>.lit 31 63) = true ∧ ({ State.reset with disp := lit [(63, 31)] } : State).getPixel 63 31 = true ∧
    Cause.code .reservedWrite = 6 := by decide

/-! ### Witnesses: for every obligation with hypotheses, states and operands that meet them, at the ends of their ranges -/

/-- The state after reset with another `pc`. -/
def atPc (pc : Word) : State := { State.reset with pc := pc }

/-- A state of the invariant that is not the one after reset: one return address on the stack, a key wait. -/
def waiting : State :=
  { (start 0xF50A) with run := .waitingForKey, waitX := 5, SP := 1, stack := (State.reset.stack).set 0 0x0202 }

theorem witness_DecodeInvertsEncode : (Instr.drw 15 15 15).wellFormed = true ∧ (Instr.sys 0xFFF).wellFormed = true := by
  decide

theorem witness_EncodeInvertsDecode : decode 0xFF65 = .ok (.loadRegs 15) ∧ decode 0x0000 = .ok (.sys 0) := by decide

theorem witness_OpcodeRowsOverlapOnlyInClassZero :
    ∃ (w : Word) (j k : Fin opcodeTable.length), j < k ∧ opcodeTable[j].matchesWord w = true ∧
      opcodeTable[k].matchesWord w = true :=
  ⟨0x00EE, ⟨1, by decide⟩, ⟨2, by decide⟩, by decide, by decide, by decide⟩

theorem witness_UnmatchedWordsAreUnknown :
    (fieldU 0x0000 = 0 ∧ (0x0000 : Word) ≠ 0x00E0 ∧ (0x0000 : Word) ≠ 0x00EE) ∧
    (fieldU 0x0FFF = 0 ∧ (0x0FFF : Word) ≠ 0x00E0 ∧ (0x0FFF : Word) ≠ 0x00EE) := by decide

theorem witness_MemReadAnswersByteOrWord :
    (4096 ≤ 4096) ∧ (4095 < 4096) ∧ (4096 ≤ 4095 + 1) ∧ (4094 + 1 < 4096) ∧
    (start 0x6A05).readByte 0x200 = 0x6A ∧ (start 0x6A05).readByte 0x201 = 0x05 := by decide

theorem witness_MemWriteChangesOneByte :
    (4096 ≤ 4096) ∧ (0x1FF < 0x200) ∧ (0x200 ≤ 0x200 ∧ 0x200 < 4096) ∧ (0x200 ≤ 4095 ∧ 4095 < 4096) := by decide

theorem witness_FaultEntryWritesRecordOnly :
    (Raised.mk .badPC 0x1FFFF).info < 2 ^ 17 ∧ (start 0x6A05).readWord 0x200 = .ok 0x6A05 ∧
    (atPc 0xFFF).readWord (atPc 0xFFF).pc.toNat = .error ⟨.outOfRange, 4096⟩ := by decide

theorem witness_SysAdvancesOrTraps :
    ((atPc 0xFFC).params.sysPolicy = .nop ∧ (atPc 0xFFC).CanAdvance) ∧
    ({ State.reset with params := ⟨0, false, .fatal⟩ } : State).params.sysPolicy = .fatal := by decide

theorem witness_JpSetsPcOrFaults :
    PcValue (0x200 : Addr12).toNat ∧ PcValue (0xFFE : Addr12).toNat ∧ ¬ PcValue (0x1FE : Addr12).toNat ∧
    ¬ PcValue (0xFFF : Addr12).toNat := by decide

theorem witness_CallPushesReturnAddress :
    ({ atPc 0xFFC with SP := 15 } : State).SP.toNat < Config.stackDepth ∧ (atPc 0xFFC).pc.toNat + 2 ≤ 0xFFE ∧
    PcValue (0xFFE : Addr12).toNat := by decide

theorem witness_CallFaultsInOrder :
    ({ atPc 0xFFE with SP := 16 } : State).SP = 16 ∧
    ((atPc 0xFFE).SP ≠ 16 ∧ 0xFFE < (atPc 0xFFE).pc.toNat + 2) ∧
    ((atPc 0xFFC).SP ≠ 16 ∧ (atPc 0xFFC).pc.toNat + 2 ≤ 0xFFE ∧ ¬ PcValue (0x1FE : Addr12).toNat) := by decide

theorem witness_RetPopsIntoPc :
    State.reset.SP = 0 ∧
    (∃ h : ({ State.reset with SP := 16, stack := (State.reset.stack).set 15 0xFFE } : State).SP.toNat - 1 <
        Config.stackDepth,
      ({ State.reset with SP := 16, stack := (State.reset.stack).set 15 0xFFE } : State).SP ≠ 0 ∧
      PcValue ({ State.reset with SP := 16, stack := (State.reset.stack).set 15 0xFFE } : State).stack[
        ({ State.reset with SP := 16, stack := (State.reset.stack).set 15 0xFFE } : State).SP.toNat - 1].toNat) ∧
    (∃ h : ({ State.reset with SP := 1 } : State).SP.toNat - 1 < Config.stackDepth,
      ({ State.reset with SP := 1 } : State).SP ≠ 0 ∧
      ¬ PcValue ({ State.reset with SP := 1 } : State).stack[({ State.reset with SP := 1 } : State).SP.toNat - 1].toNat) :=
  ⟨by decide, ⟨by decide, by decide, by decide⟩, ⟨by decide, by decide, by decide⟩⟩

theorem witness_CallThenRetReturns :
    ({ atPc 0xFFC with SP := 15 } : State).SP.toNat < Config.stackDepth ∧ (atPc 0xFFC).CanAdvance ∧
    PcValue (0x200 : Addr12).toNat := by decide

theorem witness_StackPointerBeyondDepthStops :
    Config.stackDepth < ({ State.reset with SP := 17 } : State).SP.toNat ∧
    ({ State.reset with SP := 17 } : State).pc.toNat + 2 ≤ 0xFFE ∧ PcValue (0x200 : Addr12).toNat := by decide

theorem witness_JpV0AddsUnmasked :
    PcValue ((0xEFF : Addr12).toNat + ((State.reset.setV 0 0xFF).getV 0).toNat) ∧
    ¬ PcValue ((0xFFF : Addr12).toNat + ((State.reset.setV 0 0xFF).getV 0).toNat) := by decide

theorem witness_RegisterSkipsOnCondition :
    ((atPc 0xFFA).getV 3 = 0 ∧ (atPc 0xFFA).CanSkip) ∧ (¬ (atPc 0xFFC).getV 3 = 1 ∧ (atPc 0xFFC).CanAdvance) ∧
    ((atPc 0xFFA).getV 3 ≠ 1 ∧ (atPc 0xFFA).CanSkip) ∧ (¬ (atPc 0xFFC).getV 3 ≠ 0 ∧ (atPc 0xFFC).CanAdvance) ∧
    ((atPc 0xFFA).getV 1 = (atPc 0xFFA).getV 2) ∧ (((atPc 0xFFA).setV 1 7).getV 1 ≠ ((atPc 0xFFA).setV 1 7).getV 2) := by
  decide

theorem witness_KeySkipsOnLevel :
    (((atPc 0xFFA).present (some ⟨0x8000, 0⟩)).setV 5 0x1F).keys.getLsbD
        (((((atPc 0xFFA).present (some ⟨0x8000, 0⟩)).setV 5 0x1F).getV 5).toNat % 16) = true ∧
    (((atPc 0xFFA).present (some ⟨0x7FFF, 0⟩)).setV 5 0x1F).keys.getLsbD
        (((((atPc 0xFFA).present (some ⟨0x7FFF, 0⟩)).setV 5 0x1F).getV 5).toNat % 16) = false ∧
    (atPc 0xFFA).CanSkip ∧ (atPc 0xFFC).CanAdvance := by decide

theorem witness_SkipsFaultAtTop :
    ((atPc 0xFFC).pc = 0xFFC ∧ (atPc 0xFFC).getV 3 = 0) ∧ ((atPc 0xFFE).pc = 0xFFE ∧ (atPc 0xFFE).getV 3 = 0) ∧
    ((atPc 0xFFE).pc = 0xFFE ∧ ¬ (atPc 0xFFE).getV 3 = 1) ∧
    ((atPc 0xFFE).present (some ⟨0x0001, 0⟩)).keys.getLsbD (((atPc 0xFFE).getV 5).toNat % 16) = true := by decide

/-- The hypothesis of LoadsWriteDestination, AddImmWrapsWithoutFlag, BitwiseActsBitByBit, AddRegSumAndCarry,
SubtractionsDifferenceAndNotBorrow, ShiftsReadVy, IndexInstructionsWriteI, ClsBlanksDisplay and TimerWritesSetTimers. -/
theorem witness_CanAdvance : (atPc 0x200).CanAdvance ∧ (atPc 0xFFC).CanAdvance ∧ ¬ (atPc 0xFFE).CanAdvance := by decide

theorem witness_PlainInstructionsFaultAtTop :
    (plainAdvance (.sys 0x123) ∧ (∀ nnn, Instr.sys 0x123 = .sys nnn → (atPc 0xFFE).params.sysPolicy = .nop) ∧
      (atPc 0xFFE).pc = 0xFFE) ∧
    (plainAdvance (.ldF 15) ∧ ∀ nnn, Instr.ldF 15 = .sys nnn →
      ({ atPc 0xFFE with params := ⟨0, false, .fatal⟩ } : State).params.sysPolicy = .nop) :=
  ⟨⟨trivial, fun _ _ => rfl, rfl⟩, trivial, fun _ h => nomatch h⟩

theorem witness_BcdStoresDigits :
    ((atPc 0xFFC).CanAdvance ∧ 0x200 ≤ ({ atPc 0xFFC with I := 0xFFD } : State).I.toNat ∧
      ({ atPc 0xFFC with I := 0xFFD } : State).I.toNat + 2 < 4096) ∧
    (0x200 ≤ ({ atPc 0xFFC with I := 0x200 } : State).I.toNat) := by decide

theorem witness_StoreRegsWritesBlock :
    (atPc 0xFFC).CanAdvance ∧ 0x200 ≤ ({ atPc 0xFFC with I := 0xFF0 } : State).I.toNat ∧
    ({ atPc 0xFFC with I := 0xFF0 } : State).I.toNat + (15 : Reg).val < 4096 := by decide

theorem witness_LoadRegsReadsBlock :
    (atPc 0xFFC).CanAdvance ∧ (atPc 0xFFC).I.toNat + (15 : Reg).val < 4096 ∧
    ({ atPc 0xFFC with I := 0xFFF } : State).I.toNat + (0 : Reg).val < 4096 := by decide

theorem witness_BlockTransfersFault :
    4096 ≤ ({ State.reset with I := 0xFFE } : State).I.toNat + 2 ∧ ({ State.reset with I := 0x1FF } : State).I.toNat < 0x200 ∧
    4096 ≤ ({ State.reset with I := 0xFF1 } : State).I.toNat + (15 : Reg).val ∧
    ((1 : Fin 16) ≠ 0 ∧ 4096 ≤ ({ State.reset with I := 0x1000 } : State).I.toNat + (1 : Fin 16).val - 1) := by decide

theorem witness_BlockTransfersFaultAtTop :
    (atPc 0xFFE).pc = 0xFFE ∧ 0x200 ≤ ({ atPc 0xFFE with I := 0xFFD } : State).I.toNat ∧
    ({ atPc 0xFFE with I := 0xFFD } : State).I.toNat + 2 < 4096 ∧
    ({ atPc 0xFFE with I := 0xFF0 } : State).I.toNat + (15 : Reg).val < 4096 ∧
    ((0 : Fin 16) = 0 ∨ ({ atPc 0xFFE with I := 0xFFFF } : State).I.toNat + (0 : Fin 16).val - 1 < 4096) ∧
    ({ atPc 0xFFE with I := 0xFFF } : State).I.toNat + (1 : Fin 16).val - 1 < 4096 := by decide

theorem witness_StoreThenLoadRestoresRegisters :
    ∃ t, exec (.storeRegs 15) { State.reset with I := 0xFF0 } = .next t ∧ t.CanAdvance ∧
      t.I = ({ State.reset with I := 0xFF0 } : State).I ∧ 0x200 ≤ ({ State.reset with I := 0xFF0 } : State).I.toNat ∧
      ({ State.reset with I := 0xFF0 } : State).I.toNat + (15 : Reg).val < 4096 ∧ State.reset.CanAdvance :=
  ⟨_, rfl, by decide, by decide, by decide, by decide, by decide⟩

theorem witness_DrwXorsSprite :
    ((atPc 0xFFC).CanAdvance ∧ (0 : Fin 16) = 0) ∧ ({ atPc 0xFFC with I := 0xFF1 } : State).I.toNat + (15 : Fin 16).val - 1 < 4096 := by
  decide

/-- DrwXorsSprite's two clauses about the flag: a sprite whose one 1 bit lands on a lit pixel, and one that has none. -/
theorem witness_DrwXorsSprite_flag :
    (∃ r c, Covers { poke State.reset 0x300 [0x01] with I := 0x300, disp := lit [(7, 0)] } 0 1 1 r c ∧
      (lit [(7, 0)]).lit r c = true) ∧
    ¬ ∃ r c, Covers State.reset 0 1 0 r c ∧ State.reset.disp.lit r c = true :=
  ⟨⟨0, 7, ⟨0, by decide, 7, by decide, by decide, by decide, by decide⟩, by decide⟩,
    fun ⟨_, _, ⟨_, hj, _⟩, _⟩ => absurd hj (Nat.not_lt_zero _)⟩

theorem witness_DrwTwiceRestoresDisplay :
    ∃ t u, exec (.drw 0 1 5) { State.reset with I := 0x050 } = .next t ∧ exec (.drw 0 1 5) t = .next u ∧
      t.getV 0 = State.reset.getV 0 ∧ t.getV 1 = State.reset.getV 1 ∧ State.reset.CanAdvance ∧ t.CanAdvance ∧
      ({ State.reset with I := 0x050 } : State).I.toNat + (5 : Fin 16).val - 1 < 4096 :=
  ⟨_, _, rfl, rfl, by decide, by decide, by decide, by decide, by decide⟩

theorem witness_SupplyKeyEndsWait :
    State.reset.run ≠ .waitingForKey ∧ (waiting.run = .waitingForKey ∧ waiting.CanAdvance) ∧
    (({ waiting with pc := 0xFFE } : State).run = .waitingForKey ∧ ({ waiting with pc := 0xFFE } : State).pc = 0xFFE) := by
  decide

theorem witness_TickCountsDown :
    0 < ({ State.reset with DT := 1 } : State).DT.toNat ∧ State.reset.DT.toNat = 0 ∧
    0 < ({ State.reset with ST := 255 } : State).ST.toNat ∧ State.reset.ST.toNat = 0 := by decide

theorem witness_LoadInstallsProgram :
    ([] : List Byte).length ≤ 3584 ∧ (List.replicate 3584 (0xFF : Byte)).length ≤ 3584 :=
  ⟨by decide, le_of_eq List.length_replicate⟩

theorem witness_LoadTooLongChangesNothing : 3584 < (List.replicate 3585 (0xFF : Byte)).length :=
  lt_of_lt_of_eq (by decide) List.length_replicate.symm

theorem witness_StepRunsDecodedInstruction :
    ((start 0x6A05).run = .running ∧ (start 0x6A05).readWord (start 0x6A05).pc.toNat = .ok 0x6A05 ∧
      decode 0x6A05 = .ok (.ldImm 0xA 5) ∧ (start 0x6A05).schedule = []) ∧
    (startWith 1 2 0x6A05).schedule = .step 1 2 :: [] := by decide

theorem witness_StepWhenNotRunningChangesNothing : waiting.run ≠ .running := by decide

theorem witness_StepRaisesBeforeExecuting :
    ((start 0x5121).run = .running ∧ (start 0x5121).readWord (start 0x5121).pc.toNat = .ok 0x5121 ∧
      decode 0x5121 = .error (.unknownOpcode 0x5121)) ∧
    (atPc 0xFFF).run = .running ∧ 4095 ≤ (atPc 0xFFF).pc.toNat := by decide

theorem witness_StepTakesScheduledEvents :
    ({ State.reset with schedule := [.tick] } : State).schedule = .tick :: [] ∧
    ({ State.reset with schedule := [.supplyKey 3] } : State).schedule = .supplyKey 3 :: [] ∧
    ({ State.reset with schedule := [.load [1]] } : State).schedule = .load [1] :: [] := by decide

/-- A waiting machine meets the invariant: the premise of StepKeepsInv and EveryStepAnswers. -/
theorem witness_Inv : waiting.Inv where
  pcLegal := by decide
  spBounded := by decide
  stackLegal := by decide
  reservedConstant := by
    intro a ha
    have h1 : 0x200 ≠ a := by omega
    have h2 : 0x201 ≠ a := by omega
    have hm : waiting.mem = [(0x200, 0xF5), (0x201, 0x0A)] := by decide
    simp [State.readByte, hm, Memory.read, h1, h2]
  faultMatchesRun := by decide
  waitMatchesWord := by decide
  memoryCanonical := by decide

theorem witness_StepKeepsInv : ∃ t, step waiting = .next t := ⟨_, rfl⟩

theorem witness_HaltedIsTerminal :
    ({ State.reset with run := .halted } : State).run = .halted ∧
    (∃ t, applyEvent .tick { State.reset with run := .halted } = .next t) ∧
    ((∃ t, applyEvent (.load []) { State.reset with run := .halted } = .next t) ∧ ([] : List Byte).length ≤ 3584) ∧
    ((∃ t, applyEvent (.load (List.replicate 3585 0)) { State.reset with run := .halted } = .next t) ∧
      3584 < (List.replicate 3585 (0 : Byte)).length) :=
  ⟨rfl, ⟨_, rfl⟩, ⟨⟨_, rfl⟩, by decide⟩, ⟨_, rfl⟩, lt_of_lt_of_eq (by decide) List.length_replicate.symm⟩

theorem witness_RegisterFrame : (∃ t, exec (.addReg 1 2) State.reset = .next t) ∧ ¬ writesReg (.addReg 1 2) 2 :=
  ⟨⟨_, rfl⟩, by simp [writesReg, VF]⟩

theorem witness_MemoryFrame :
    (∃ t, exec (.ldB 3) { State.reset with I := 0x300 } = .next t) ∧
    ¬ storesTo (.ldB 3) { State.reset with I := 0x300 } 0x303 ∧ (0x1FF < 0x200) :=
  ⟨⟨_, rfl⟩, by simp [storesTo], by decide⟩

theorem witness_StackFrame :
    (∃ t, exec (.call 0x300) State.reset = .next t) ∧ (1 : Fin Config.stackDepth).val ≠ State.reset.SP.toNat ∧
    (∃ t, exec .cls State.reset = .next t) ∧ (∀ nnn, Instr.cls ≠ .call nnn) ∧ Instr.cls ≠ .ret :=
  ⟨⟨_, rfl⟩, by decide, ⟨_, rfl⟩, by simp, by simp⟩

theorem witness_OtherStateFrame :
    (∃ t, exec (.storeRegs 3) { State.reset with I := 0x300 } = .next t) ∧
    ¬ writesIndex (.storeRegs 3) { State.reset with I := 0x300 } :=
  ⟨⟨_, rfl⟩, by simp [writesIndex, State.reset, State.resetWith, Config.defaultParams]⟩

/-- FaultsArePrecise: an instruction that ends without a fault, one that waits, one that faults. -/
theorem witness_FaultsArePrecise :
    (∃ t, exec .cls State.reset = .next t ∧ t.run = .running) ∧
    (∃ t, exec (.ldVxK 3) State.reset = .next t ∧ t.run = .waitingForKey) ∧
    (∃ t, exec .ret State.reset = .next t ∧ t.run = .halted) :=
  ⟨⟨_, rfl, by decide⟩, ⟨_, rfl, by decide⟩, ⟨_, rfl, by decide⟩⟩

theorem witness_InputsReadByThreeOnly :
    ¬ readsInput .cls ∧ (∃ t, exec .cls State.reset = .next t) ∧
    exec .ret { State.reset with SP := 17 } = .fault .noStackEntry :=
  ⟨by simp [readsInput], ⟨_, rfl⟩, rfl⟩

/-- P5's word `6A2A` at the place of the next fetch, with both schedules, and the largest block. -/
theorem witness_FetchSeesStoredWord :
    (∃ t, exec (.storeRegs 1) { ((State.reset.setV 0 0x6A).setV 1 0x2A) with I := 0x202 } = .next t) ∧
    State.reset.run = .running ∧ State.reset.schedule = [] ∧ State.reset.CanAdvance ∧
    (0x202 : Word) = State.reset.pc + 2 ∧ (0x202 : Word).toNat + (15 : Reg).val < 4096 ∧
    (0x6A : Byte) = ((0x6A2A : Word) >>> 8).setWidth 8 ∧ (0x2A : Byte) = (0x6A2A : Word).setWidth 8 ∧
    decode 0x6A2A = .ok (.ldImm 0xA 0x2A) ∧ (startWith 1 2 0xF155).schedule = .step 1 2 :: [] :=
  ⟨⟨_, rfl⟩, by decide, by decide, by decide, by decide, by decide, by decide, by decide, by decide, by decide⟩

theorem witness_RunOverStaysPut :
    (start 0x1200).RunOver ∧ (start 0x1200).schedule = [] ∧ (startAt 0xFFE 0x1FFE).RunOver := by decide

end Sys2Proof.Tests
end

section
/-! PROOFS. What a memory read answers (spec/20_memory.md). -/
namespace Sys2Proof.Machine

/-- The failing side of `State.readWord_ok`: the info value is the lowest address at 4096 or above that the access
touches (R52). -/
theorem State.readWord_outOfRange {s : State} {a : Nat} (h : 4096 ≤ a + 1) :
    s.readWord a = .error ⟨.outOfRange, max a 4096⟩ := by
  simp [State.readWord, Config.memSize, h]

/-- Settles O7, from the success and the failure rule of each access size. -/
theorem memReadAnswersByteOrWord : Obligations.MemReadAnswersByteOrWord := by
  intro s a
  refine ⟨fun h => ?byteOut, State.read8_ok, State.readWord_outOfRange,
    fun h => ⟨_, State.readWord_ok h, wordOfBytes_toNat _ _⟩, fun hhi hlo => ?wordExample,
    State.readWord_outOfRange (by decide)⟩
  case byteOut => rw [State.read8_outOfRange h, max_eq_left h]
  case wordExample =>
    rw [State.readWord_ok (by decide), hhi, hlo]
    decide

end Sys2Proof.Machine
end

section
/-! PROOFS. The fields of a word and its two bytes in memory (spec/30_encoding.md). -/
namespace Sys2Proof.Machine

/-- The byte stored first holds the bits 15 to 8 of the word, the fields `u` and `x` (R81). -/
theorem highByte_toNat (w : Word) :
    ((w >>> 8).setWidth 8 : Byte).toNat = (fieldU w).val * 16 + (fieldX w).val := by
  have := w.isLt
  rw [BitVec.toNat_setWidth, BitVec.toNat_ushiftRight, Nat.shiftRight_eq_div_pow, fieldU_val, fieldX_val]
  omega

/-- The two bytes of a word, joined in memory order, give the word back (R54). -/
theorem wordOfBytes_highByte_fieldKK (w : Word) : wordOfBytes ((w >>> 8).setWidth 8) (fieldKK w) = w := by
  apply BitVec.eq_of_toNat_eq
  rw [wordOfBytes_toNat, highByte_toNat, fieldU_val, fieldX_val, fieldKK_toNat]
  omega

/-- Settles O2: the slices are the arithmetic rules of the six fields, the overlaps follow from them by arithmetic. -/
theorem fieldsAreBitSlices : Obligations.FieldsAreBitSlices := by
  intro w
  have kkOverlap : (fieldKK w).toNat = (fieldY w).val * 16 + (fieldN w).val := by
    rw [fieldKK_toNat, fieldY_val, fieldN_val]
    omega
  have nnnOverlap : (fieldNNN w).toNat = (fieldX w).val * 256 + (fieldY w).val * 16 + (fieldN w).val := by
    rw [fieldNNN_toNat, fieldX_val, fieldY_val, fieldN_val]
    omega
  exact ⟨fieldU_val w, fieldX_val w, fieldY_val w, fieldN_val w, fieldKK_toNat w, fieldNNN_toNat w, kkOverlap,
    nnnOverlap, _, _, rfl, highByte_toNat w, rfl, wordOfBytes_highByte_fieldKK w⟩

end Sys2Proof.Machine
end

section
/-! PROOFS. The Step that does nothing and the skips at the top of memory (spec/40_execution_cycle.md R113, R114). -/
namespace Sys2Proof.Machine

/-- The failing side of a conditional skip's closing: it takes BadPC on the target of the branch it chose (R112, R113). -/
theorem State.skipIf_refused {s : State} {b : Bool} {t : Nat} (ht : s.pc.toNat + (if b then 4 else 2) = t)
    (h : ¬ PcValue t) : HaltedBy s (s.skipIf b) .badPC t := by
  subst ht
  have hraise : s.skipIf b = s.raise ⟨.badPC, s.pc.toNat + (if b then 4 else 2)⟩ := by
    cases b with
    | false => exact State.setPC_refused s s h
    | true => exact State.setPC_refused s s h
  rw [hraise]
  exact State.raise_haltedBy s _ _

/-- An instruction that closes as a conditional skip on `c` faults at the top of memory as R113's cases say. -/
theorem skipFaultsAtTop_of_skipIf {i : Instr} {s : State} {b : Bool} {c : Prop}
    (hexec : exec i s = .next (s.skipIf b)) (hb : b = true ↔ c) : SkipFaultsAtTop i s c := by
  refine ⟨fun hpc hc => ?takenAtFFC, fun hpc hc => ?takenAtFFE, fun hpc hc => ?notTakenAtFFE⟩
  case takenAtFFC => exact ⟨_, hexec, State.skipIf_refused (by rw [hpc, hb.mpr hc]; rfl) (by decide)⟩
  case takenAtFFE => exact ⟨_, hexec, State.skipIf_refused (by rw [hpc, hb.mpr hc]; rfl) (by decide)⟩
  case notTakenAtFFE =>
    have hfalse : b = false := Bool.eq_false_iff.mpr fun ht => hc (hb.mp ht)
    exact ⟨_, hexec, State.skipIf_refused (by rw [hpc, hfalse]; rfl) (by decide)⟩

/-- Settles O20: each of the six skips closes by `State.skipIf`, and differs from the others in its condition only. -/
theorem skipsFaultAtTop : Obligations.SkipsFaultAtTop := by
  intro x y kk s
  refine ⟨?seImm, ?sneImm, ?seReg, ?sneReg, ?skp, ?sknp⟩
  case seImm => exact skipFaultsAtTop_of_skipIf (b := s.getV x == kk) rfl beq_iff_eq
  case sneImm => exact skipFaultsAtTop_of_skipIf (b := s.getV x != kk) rfl bne_iff_ne
  case seReg => exact skipFaultsAtTop_of_skipIf (b := s.getV x == s.getV y) rfl beq_iff_eq
  case sneReg => exact skipFaultsAtTop_of_skipIf (b := s.getV x != s.getV y) rfl bne_iff_ne
  case skp => exact skipFaultsAtTop_of_skipIf (b := s.keyDown x) rfl (by rw [State.keyDown_eq])
  case sknp => exact skipFaultsAtTop_of_skipIf (b := !s.keyDown x) rfl (by rw [Bool.not_eq_true', State.keyDown_eq])

/-- Settles O46: of the three things a Step can do, the other two need a running machine. -/
theorem stepWhenNotRunningChangesNothing : Obligations.StepWhenNotRunningChangesNothing := by
  intro inp s hr
  obtain ⟨-, hsame⟩ | ⟨hrun, -⟩ | ⟨hrun, -⟩ := stepEvent_cases inp s
  · exact hsame
  · exact absurd hrun hr
  · exact absurd hrun hr

end Sys2Proof.Machine
end

section
/-! PROOFS. The Load that is rejected (spec/60_exceptions.md R225). -/
namespace Sys2Proof.Machine

/-- Load refuses exactly the images longer than the 3584 bytes from 0x200 up (R225). -/
theorem loadAccepted_eq_false_iff {bytes : List Byte} : loadAccepted bytes = false ↔ 3584 < bytes.length :=
  decide_eq_false_iff_not.trans Nat.not_le

/-- What a Load of too many bytes tells the host. -/
theorem eventResult_load_rejected (s : State) {bytes : List Byte} (h : 3584 < bytes.length) :
    eventResult (.load bytes) s = some .programTooLarge := by
  simp [eventResult, loadAccepted_eq_false_iff.mpr h]

/-- Settles O43: the event Load goes on from `s.load bytes`, which is `s` for an image that is rejected. -/
theorem loadTooLongChangesNothing : Obligations.LoadTooLongChangesNothing := by
  intro bytes s h
  have hsame : s.load bytes = s := State.load_rejected s h
  exact ⟨eventResult_load_rejected s h, congrArg Host.Outcome.next hsame, hsame⟩

end Sys2Proof.Machine
end

section
/-! PROOFS. The decoder against the opcode map and against the encoder (spec/30_encoding.md R84 to R92). -/
namespace Sys2Proof.Machine

open Sys2Proof.Laws

/-! ### The first entry that matches (R84) -/

/-- A word goes to the entry at index `k` when it matches that entry and none before it. -/
theorem decodeWith_of_first {rows : List OpcodeRow} {w : Word} (k : Nat) (hk : k < rows.length)
    (hmatch : rows[k].matchesWord w = true)
    (hfirst : ∀ j, ∀ hj : j < k, rows[j].matchesWord w = false) :
    decodeWith rows w = .ok (rows[k].build w) := by
  induction rows generalizing k with
  | nil => exact absurd hk (Nat.not_lt_zero k)
  | cons r rest ih =>
    cases k with
    | zero => exact if_pos hmatch
    | succ k =>
      have hhead : ¬ r.matchesWord w = true := Bool.eq_false_iff.mp (hfirst 0 k.succ_pos)
      have hk' : k < rest.length := Nat.lt_of_succ_lt_succ hk
      have htail : decodeWith rest w = .ok (rest[k].build w) :=
        ih k hk' hmatch fun j hj => hfirst (j + 1) (Nat.succ_lt_succ hj)
      exact (if_neg hhead).trans htail

/-- What decodes was built by an entry that the word matches. -/
theorem exists_row_of_decodeWith_ok {rows : List OpcodeRow} {w : Word} {i : Instr} (h : decodeWith rows w = .ok i) :
    ∃ r ∈ rows, r.matchesWord w = true ∧ r.build w = i := by
  induction rows with
  | nil => cases h
  | cons r rest ih =>
    by_cases hr : r.matchesWord w = true
    · rw [decodeWith, if_pos hr] at h
      exact ⟨r, List.mem_cons_self, hr, Except.ok.inj h⟩
    · rw [decodeWith, if_neg hr] at h
      obtain ⟨q, hq, hm⟩ := ih h
      exact ⟨q, List.mem_cons_of_mem r hq, hm⟩

/-- A word is unknown exactly when it matches no entry (R86). -/
theorem decodeWith_eq_unknown_iff {rows : List OpcodeRow} {w : Word} :
    decodeWith rows w = .error (.unknownOpcode w) ↔ ∀ r ∈ rows, ¬ r.matchesWord w = true := by
  induction rows with
  | nil => exact iff_of_true rfl (by simp)
  | cons r rest ih =>
    rw [List.forall_mem_cons, decodeWith]
    by_cases hr : r.matchesWord w = true
    · rw [if_pos hr]
      exact iff_of_false nofun fun h => h.1 hr
    · rw [if_neg hr, ih]
      exact (and_iff_right hr).symm

/-! ### What an entry's mask tests (R84, R85) -/

theorem matches_F000_iff {r : OpcodeRow} {w : Word} (hm : r.mask = 0xF000) :
    r.matchesWord w = true ↔ fieldU w = fieldU r.pattern ∧ fieldNNN r.pattern = 0 := by
  rw [OpcodeRow.matchesWord_iff, hm, BitVec.ofNat_eq_ofNat, toNat_and_F000]
  simp only [Fin.ext_iff, ← BitVec.toNat_inj, fieldU_val, fieldNNN_toNat, BitVec.ofNat_eq_ofNat, BitVec.toNat_ofNat]
  clear hm
  omega

theorem matches_F00F_iff {r : OpcodeRow} {w : Word} (hm : r.mask = 0xF00F) :
    r.matchesWord w = true ↔
      (fieldU w = fieldU r.pattern ∧ fieldN w = fieldN r.pattern) ∧ fieldX r.pattern = 0 ∧ fieldY r.pattern = 0 := by
  rw [OpcodeRow.matchesWord_iff, hm, BitVec.ofNat_eq_ofNat, toNat_and_F00F]
  simp only [Fin.ext_iff, fieldU_val, fieldX_val, fieldY_val, fieldN_val, Fin.coe_ofNat_eq_mod]
  clear hm
  omega

theorem matches_F0FF_iff {r : OpcodeRow} {w : Word} (hm : r.mask = 0xF0FF) :
    r.matchesWord w = true ↔
      (fieldU w = fieldU r.pattern ∧ fieldKK w = fieldKK r.pattern) ∧ fieldX r.pattern = 0 := by
  rw [OpcodeRow.matchesWord_iff, hm, BitVec.ofNat_eq_ofNat, toNat_and_F0FF]
  simp only [Fin.ext_iff, ← BitVec.toNat_inj, fieldU_val, fieldX_val, fieldKK_toNat, Fin.coe_ofNat_eq_mod]
  clear hm
  omega

theorem matches_FFFF_iff {r : OpcodeRow} {w : Word} (hm : r.mask = 0xFFFF) :
    r.matchesWord w = true ↔ w = r.pattern := by
  rw [OpcodeRow.matchesWord_iff, hm, BitVec.ofNat_eq_ofNat, toNat_and_FFFF, BitVec.toNat_inj]

/-! ### Entries that overlap (R84) -/

/-- Of two different entries whose patterns agree where their masks overlap, the later one is SYS, at index 2. -/
theorem later_row_of_patterns_agree :
    ∀ j k : Fin opcodeTable.length, j < k →
      opcodeTable[j].pattern &&& opcodeTable[k].mask = opcodeTable[k].pattern &&& opcodeTable[j].mask → k.val = 2 := by
  decide

/-- The entries before SYS are CLS and RET, which match one word each. -/
theorem eq_of_matches_before_sys {w : Word} {j : Fin opcodeTable.length} (hj : j.val < 2)
    (hm : opcodeTable[j].matchesWord w = true) : w = 0x00E0 ∨ w = 0x00EE := by
  obtain rfl | rfl : j = ⟨0, by decide⟩ ∨ j = ⟨1, by decide⟩ := by
    simp only [Fin.ext_iff]
    omega
  · exact .inl ((matches_FFFF_iff rfl).mp hm)
  · exact .inr ((matches_FFFF_iff rfl).mp hm)

/-- Settles O5: where two entries match one word their patterns agree on the common mask bits (`OpcodeRow.agree`), which
of all pairs only SYS and an entry before it do. -/
theorem opcodeRowsOverlapOnlyInClassZero : Obligations.OpcodeRowsOverlapOnlyInClassZero := by
  intro w j k hjk hj hk
  have hsys : k.val = 2 := later_row_of_patterns_agree j k hjk (OpcodeRow.agree hj hk)
  exact ⟨hsys, eq_of_matches_before_sys (hsys ▸ hjk) hj⟩

/-- A word that matches an entry decodes by it, unless the entry is SYS and the word is that of CLS or RET. -/
theorem decode_of_matches {w : Word} (k : Fin opcodeTable.length) (hmatch : opcodeTable[k].matchesWord w = true)
    (hw : k.val = 2 → w ≠ 0x00E0 ∧ w ≠ 0x00EE) : decode w = .ok (opcodeTable[k].build w) := by
  refine decodeWith_of_first k.val k.isLt hmatch fun j hj => Bool.eq_false_iff.mpr fun hjm => ?_
  obtain ⟨hsys, hw'⟩ := opcodeRowsOverlapOnlyInClassZero w ⟨j, hj.trans k.isLt⟩ k hj hjm hmatch
  exact hw'.elim (hw hsys).1 (hw hsys).2

/-! ### Decoding after encoding (R85, R89) -/

/-- Every instruction's word matches the entry that builds the instruction from it. -/
theorem encodesItsRow : ∀ i : Instr, EncodesItsRow.Statement i
  | .cls => EncodesItsRow.cls
  | .ret => EncodesItsRow.ret
  | .sys nnn => EncodesItsRow.sys nnn
  | .jp nnn => EncodesItsRow.jp nnn
  | .call nnn => EncodesItsRow.call nnn
  | .seImm x kk => EncodesItsRow.seImm x kk
  | .sneImm x kk => EncodesItsRow.sneImm x kk
  | .seReg x y => EncodesItsRow.seReg x y
  | .ldImm x kk => EncodesItsRow.ldImm x kk
  | .addImm x kk => EncodesItsRow.addImm x kk
  | .ldReg x y => EncodesItsRow.ldReg x y
  | .orReg x y => EncodesItsRow.orReg x y
  | .andReg x y => EncodesItsRow.andReg x y
  | .xorReg x y => EncodesItsRow.xorReg x y
  | .addReg x y => EncodesItsRow.addReg x y
  | .sub x y => EncodesItsRow.sub x y
  | .shr x y => EncodesItsRow.shr x y
  | .subn x y => EncodesItsRow.subn x y
  | .shl x y => EncodesItsRow.shl x y
  | .sneReg x y => EncodesItsRow.sneReg x y
  | .ldI nnn => EncodesItsRow.ldI nnn
  | .jpV0 nnn => EncodesItsRow.jpV0 nnn
  | .rnd x kk => EncodesItsRow.rnd x kk
  | .drw x y n => EncodesItsRow.drw x y n
  | .skp x => EncodesItsRow.skp x
  | .sknp x => EncodesItsRow.sknp x
  | .ldVxDT x => EncodesItsRow.ldVxDT x
  | .ldVxK x => EncodesItsRow.ldVxK x
  | .ldDTVx x => EncodesItsRow.ldDTVx x
  | .ldSTVx x => EncodesItsRow.ldSTVx x
  | .addI x => EncodesItsRow.addI x
  | .ldF x => EncodesItsRow.ldF x
  | .ldB x => EncodesItsRow.ldB x
  | .storeRegs x => EncodesItsRow.storeRegs x
  | .loadRegs x => EncodesItsRow.loadRegs x

/-- Not well formed are the two SYS whose words are CLS and RET (R87). -/
theorem wellFormed_iff (i : Instr) : i.wellFormed = true ↔ i ≠ .sys 0x0E0 ∧ i ≠ .sys 0x0EE := by
  cases i with
  | sys nnn => simp [Instr.wellFormed]
  | _ => exact iff_of_true rfl ⟨nofun, nofun⟩

/-- Settles O3: the word of an instruction matches the entry that builds it back, and it decodes by that entry: were the
entry SYS and the word that of CLS or RET, the instruction would be one of the two that are not well formed. -/
theorem decodeInvertsEncode : Obligations.DecodeInvertsEncode := by
  intro i hwf
  obtain ⟨hne0, hneE⟩ := (wellFormed_iff i).mp hwf
  obtain ⟨r, hr, hmatch, hbuild⟩ := encodesItsRow i
  obtain ⟨k, hk, rfl⟩ := List.getElem_of_mem hr
  rw [decode_of_matches ⟨k, hk⟩ hmatch fun hsys => ?notClsRet]
  · exact congrArg Except.ok hbuild
  case notClsRet =>
    obtain rfl : k = 2 := hsys
    exact ⟨fun hw => hne0 (hbuild.symm.trans (hw ▸ rfl)), fun hw => hneE (hbuild.symm.trans (hw ▸ rfl))⟩

/-! ### A word from its fields (R81, R82) -/

theorem wordNNN_fields (w : Word) : wordNNN (fieldU w).val (fieldNNN w) = w := by
  apply BitVec.eq_of_toNat_eq
  rw [wordNNN_toNat (fieldU w).isLt, fieldU_val, fieldNNN_toNat]
  omega

theorem wordXKK_fields (w : Word) : wordXKK (fieldU w).val (fieldX w) (fieldKK w) = w := by
  apply BitVec.eq_of_toNat_eq
  rw [wordXKK_toNat (fieldU w).isLt, fieldU_val, fieldX_val, fieldKK_toNat]
  omega

theorem wordXYN_fields (w : Word) : wordXYN (fieldU w).val (fieldX w) (fieldY w) (fieldN w).val = w := by
  apply BitVec.eq_of_toNat_eq
  rw [wordXYN_toNat (fieldU w).isLt (fieldN w).isLt, fieldU_val, fieldX_val, fieldY_val, fieldN_val]
  omega

theorem wordX_fields (w : Word) : wordX (fieldU w).val (fieldX w) (fieldKK w).toNat = w := by
  apply BitVec.eq_of_toNat_eq
  rw [wordX_toNat (fieldU w).isLt (fieldKK w).isLt, fieldU_val, fieldX_val, fieldKK_toNat]
  omega

/-! ### Encoding after decoding (R81, R91) -/

/-- The entry drops no bit: what it builds from a word it matches encodes to that word. -/
def FaithfulRow (r : OpcodeRow) : Prop := ∀ w, r.matchesWord w = true → encode (r.build w) = w

theorem faithful_fixed {r : OpcodeRow} (hm : r.mask = 0xFFFF) (hb : ∀ w, encode (r.build w) = r.pattern) :
    FaithfulRow r := by
  intro w h
  rw [hb, (matches_FFFF_iff hm).mp h]

theorem faithful_NNN {r : OpcodeRow} (hm : r.mask = 0xF000)
    (hb : ∀ w, encode (r.build w) = wordNNN (fieldU r.pattern).val (fieldNNN w)) : FaithfulRow r := by
  intro w h
  obtain ⟨hu, -⟩ := (matches_F000_iff hm).mp h
  rw [hb, ← hu, wordNNN_fields]

theorem faithful_XKK {r : OpcodeRow} (hm : r.mask = 0xF000)
    (hb : ∀ w, encode (r.build w) = wordXKK (fieldU r.pattern).val (fieldX w) (fieldKK w)) : FaithfulRow r := by
  intro w h
  obtain ⟨hu, -⟩ := (matches_F000_iff hm).mp h
  rw [hb, ← hu, wordXKK_fields]

theorem faithful_XYN {r : OpcodeRow} (hm : r.mask = 0xF000)
    (hb : ∀ w, encode (r.build w) = wordXYN (fieldU r.pattern).val (fieldX w) (fieldY w) (fieldN w).val) :
    FaithfulRow r := by
  intro w h
  obtain ⟨hu, -⟩ := (matches_F000_iff hm).mp h
  rw [hb, ← hu, wordXYN_fields]

theorem faithful_XY {r : OpcodeRow} (hm : r.mask = 0xF00F)
    (hb : ∀ w, encode (r.build w) = wordXYN (fieldU r.pattern).val (fieldX w) (fieldY w) (fieldN r.pattern).val) :
    FaithfulRow r := by
  intro w h
  obtain ⟨⟨hu, hn⟩, -⟩ := (matches_F00F_iff hm).mp h
  rw [hb, ← hu, ← hn, wordXYN_fields]

theorem faithful_X {r : OpcodeRow} (hm : r.mask = 0xF0FF)
    (hb : ∀ w, encode (r.build w) = wordX (fieldU r.pattern).val (fieldX w) (fieldKK r.pattern).toNat) :
    FaithfulRow r := by
  intro w h
  obtain ⟨⟨hu, hk⟩, -⟩ := (matches_F0FF_iff hm).mp h
  rw [hb, ← hu, ← hk, wordX_fields]

theorem faithful_opcodeRowsA : ∀ r ∈ opcodeRowsA, FaithfulRow r := by
  simp only [opcodeRowsA, List.forall_mem_cons]
  exact ⟨faithful_fixed rfl fun _ => rfl, faithful_fixed rfl fun _ => rfl,
    faithful_NNN rfl fun _ => rfl,
    faithful_NNN rfl fun _ => rfl,
    faithful_NNN rfl fun _ => rfl,
    faithful_XKK rfl fun _ => rfl,
    faithful_XKK rfl fun _ => rfl,
    faithful_XY rfl fun _ => rfl,
    faithful_XKK rfl fun _ => rfl,
    faithful_XKK rfl fun _ => rfl, nofun⟩

theorem faithful_opcodeRowsB : ∀ r ∈ opcodeRowsB, FaithfulRow r := by
  simp only [opcodeRowsB, List.forall_mem_cons]
  exact ⟨faithful_XY rfl fun _ => rfl,
    faithful_XY rfl fun _ => rfl,
    faithful_XY rfl fun _ => rfl,
    faithful_XY rfl fun _ => rfl,
    faithful_XY rfl fun _ => rfl,
    faithful_XY rfl fun _ => rfl,
    faithful_XY rfl fun _ => rfl,
    faithful_XY rfl fun _ => rfl,
    faithful_XY rfl fun _ => rfl,
    faithful_XY rfl fun _ => rfl, nofun⟩

theorem faithful_opcodeRowsC : ∀ r ∈ opcodeRowsC, FaithfulRow r := by
  simp only [opcodeRowsC, List.forall_mem_cons]
  exact ⟨faithful_NNN rfl fun _ => rfl,
    faithful_NNN rfl fun _ => rfl,
    faithful_XKK rfl fun _ => rfl,
    faithful_XYN rfl fun _ => rfl,
    faithful_X rfl fun _ => rfl,
    faithful_X rfl fun _ => rfl, nofun⟩

theorem faithful_opcodeRowsD : ∀ r ∈ opcodeRowsD, FaithfulRow r := by
  simp only [opcodeRowsD, List.forall_mem_cons]
  exact ⟨faithful_X rfl fun _ => rfl,
    faithful_X rfl fun _ => rfl,
    faithful_X rfl fun _ => rfl,
    faithful_X rfl fun _ => rfl,
    faithful_X rfl fun _ => rfl,
    faithful_X rfl fun _ => rfl,
    faithful_X rfl fun _ => rfl,
    faithful_X rfl fun _ => rfl,
    faithful_X rfl fun _ => rfl, nofun⟩

theorem faithful_opcodeTable : ∀ r ∈ opcodeTable, FaithfulRow r := by
  simp only [opcodeTable, List.forall_mem_append]
  exact ⟨⟨⟨faithful_opcodeRowsA, faithful_opcodeRowsB⟩, faithful_opcodeRowsC⟩, faithful_opcodeRowsD⟩

theorem encode_of_decode {w : Word} {i : Instr} (h : decode w = .ok i) : encode i = w := by
  obtain ⟨r, hr, hmatch, rfl⟩ := exists_row_of_decodeWith_ok h
  exact faithful_opcodeTable r hr w hmatch

/-- Settles O4: the entry that built the instruction drops no bit, and the words of the two instructions that are not
well formed decode to others. -/
theorem encodeInvertsDecode : Obligations.EncodeInvertsDecode := by
  intro w i h
  have henc : encode i = w := encode_of_decode h
  have hcls : decode 0x00E0 = .ok .cls := by decide
  have hret : decode 0x00EE = .ok .ret := by decide
  refine ⟨henc, (wellFormed_iff i).mpr ⟨?_, ?_⟩⟩
  · rintro rfl
    cases (henc ▸ h).symm.trans hcls
  · rintro rfl
    cases (henc ▸ h).symm.trans hret

/-- Settles O1: closed words, decoded by evaluation. -/
theorem sampleWordsDecode : Obligations.SampleWordsDecode := by
  unfold Obligations.SampleWordsDecode
  decide

/-! ### The words that match nothing (R86) -/

/-! ### The words that match nothing (R86) -/

theorem unmatched_rowsA_iff {w : Word} :
    (∀ r ∈ opcodeRowsA, ¬ r.matchesWord w = true) ↔
      (w ≠ 0x00E0 ∧ w ≠ 0x00EE) ∧ fieldU w ∉ [0, 1, 2, 3, 4] ∧ (fieldU w = 5 → fieldN w ≠ 0) ∧
        fieldU w ∉ [6, 7] := by
  simp only [opcodeRowsA, List.forall_mem_cons, matches_FFFF_iff, matches_F000_iff, matches_F00F_iff,
    show fieldU 0x1000 = 1 from rfl]
  generalize fieldU w = U, fieldN w = N
  simp [fieldU, fieldN, fieldX, fieldY, fieldNNN, and_assoc]

theorem unmatched_rowsB_iff {w : Word} :
    (∀ r ∈ opcodeRowsB, ¬ r.matchesWord w = true) ↔
      (fieldU w = 8 → fieldN w ∉ [0, 1, 2, 3, 4, 5, 6, 7, 0xE]) ∧ (fieldU w = 9 → fieldN w ≠ 0) := by
  simp only [opcodeRowsB, List.forall_mem_cons, matches_F00F_iff]
  generalize fieldU w = U, fieldN w = N
  simp [fieldU, fieldN, fieldX, fieldY, imp_and, and_assoc]

theorem unmatched_rowsC_iff {w : Word} :
    (∀ r ∈ opcodeRowsC, ¬ r.matchesWord w = true) ↔
      fieldU w ∉ [0xA, 0xB, 0xC, 0xD] ∧ (fieldU w = 0xE → fieldKK w ∉ [0x9E, 0xA1]) := by
  simp only [opcodeRowsC, List.forall_mem_cons, matches_F000_iff, matches_F0FF_iff]
  generalize fieldU w = U, fieldKK w = KK
  simp [fieldU, fieldKK, fieldX, fieldNNN, imp_and, and_assoc]

theorem unmatched_rowsD_iff {w : Word} :
    (∀ r ∈ opcodeRowsD, ¬ r.matchesWord w = true) ↔
      (fieldU w = 0xF → fieldKK w ∉ [0x07, 0x0A, 0x15, 0x18, 0x1E, 0x29, 0x33, 0x55, 0x65]) := by
  simp only [opcodeRowsD, List.forall_mem_cons, matches_F0FF_iff]
  generalize fieldU w = U, fieldKK w = KK
  simp [fieldU, fieldKK, fieldX, imp_and]

/-- The classes that some entry takes whole leave these five. -/
theorem class_of_unmatched :
    ∀ U : Fin 16, U ∉ [0, 1, 2, 3, 4] → U ∉ [6, 7] → U ∉ [0xA, 0xB, 0xC, 0xD] →
      U = 5 ∨ U = 8 ∨ U = 9 ∨ U = 0xE ∨ U = 0xF := by
  decide

/-- Settles O6: what each quarter of the opcode map leaves unmatched, put together class by class; of class 0 the
entries of CLS and RET take one word each, and SYS the rest. -/
theorem unmatchedWordsAreUnknown : Obligations.UnmatchedWordsAreUnknown := by
  intro w
  have otherAlu : ∀ N : Fin 16, N ∉ [0, 1, 2, 3, 4, 5, 6, 7, 0xE] ↔
      N = 8 ∨ N = 9 ∨ N = 0xA ∨ N = 0xB ∨ N = 0xC ∨ N = 0xD ∨ N = 0xF := by decide
  refine ⟨?unknown, fun hu h0 hE => ?sys⟩
  case sys =>
    exact decode_of_matches ⟨2, by decide⟩ ((matches_F000_iff rfl).mpr ⟨hu.trans rfl, rfl⟩) fun _ => ⟨h0, hE⟩
  case unknown =>
    have hclass0 : fieldU w ≠ 0 → w ≠ 0x00E0 ∧ w ≠ 0x00EE := fun hu => ⟨fun h => hu (h ▸ rfl), fun h => hu (h ▸ rfl)⟩
    simp only [decode, decodeWith_eq_unknown_iff, opcodeTable, List.forall_mem_append, unmatched_rowsA_iff,
      unmatched_rowsB_iff, unmatched_rowsC_iff, unmatched_rowsD_iff, otherAlu]
    generalize fieldU w = U at *
    constructor
    · rintro ⟨⟨⟨⟨-, hlow, h5, hmid⟩, h8, h9⟩, hhigh, hE⟩, hF⟩
      obtain rfl | rfl | rfl | rfl | rfl := class_of_unmatched U hlow hmid hhigh
      · exact .inl ⟨.inl rfl, h5 rfl⟩
      · exact .inr (.inl ⟨rfl, h8 rfl⟩)
      · exact .inl ⟨.inr rfl, h9 rfl⟩
      · exact .inr (.inr (.inl ⟨rfl, by simpa using hE rfl⟩))
      · exact .inr (.inr (.inr ⟨rfl, by simpa using hF rfl⟩))
    · rintro (⟨rfl | rfl, hn⟩ | ⟨rfl, hn⟩ | ⟨rfl, hk⟩ | ⟨rfl, hk⟩)
      · simpa using And.intro (hclass0 (by decide)) hn
      · simpa using And.intro (hclass0 (by decide)) hn
      · simpa using And.intro (hclass0 (by decide)) hn
      · simpa using And.intro (hclass0 (by decide)) hk
      · simpa using And.intro (hclass0 (by decide)) hk

end Sys2Proof.Machine
end

section
/-! PROOFS. The invariant of the reachable states: it holds after every Load, every event keeps it, and under it every
event answers a next state (spec/10_state.md R35, 40_execution_cycle.md R110). -/
namespace Sys2Proof.Machine

theorem pcValue_pc_add_two {pc : Word} (h : PcValue (pc.toNat + 2)) : PcValue (pc + 2).toNat := by
  have hpc : (pc + 2).toNat = pc.toNat + 2 := toNat_pc_add h.2.2
  rwa [hpc]

/-! ### Fields outside the invariant -/

theorem State.Inv.present {s : State} (h : s.Inv) (inp : Option Inputs) : (s.present inp).Inv :=
  ⟨h.pcLegal, h.spBounded, h.stackLegal, h.reservedConstant, h.faultMatchesRun, h.waitMatchesWord, h.memoryCanonical⟩

theorem State.Inv.setSchedule {s : State} (h : s.Inv) (rest : List Event) : ({ s with schedule := rest } : State).Inv :=
  ⟨h.pcLegal, h.spBounded, h.stackLegal, h.reservedConstant, h.faultMatchesRun, h.waitMatchesWord, h.memoryCanonical⟩

theorem State.Inv.tick {s : State} (h : s.Inv) : s.tick.Inv :=
  ⟨h.pcLegal, h.spBounded, h.stackLegal, h.reservedConstant, h.faultMatchesRun, h.waitMatchesWord, h.memoryCanonical⟩

/-! ### Faults, updates of a running machine -/

theorem State.Inv.raise {s : State} (h : s.Inv) {e : Raised} (he : e.cause ≠ .none) : (s.raise e).Inv where
  pcLegal := h.pcLegal
  spBounded := h.spBounded
  stackLegal := h.stackLegal
  reservedConstant := h.reservedConstant
  faultMatchesRun := iff_of_true rfl he
  waitMatchesWord := nofun
  memoryCanonical := h.memoryCanonical

/-- A machine that is not halted has no fault (R35 e). -/
theorem State.Inv.cause_eq_none {s : State} (h : s.Inv) (hrun : s.run ≠ .halted) : s.fault.cause = .none :=
  not_not.mp (mt h.faultMatchesRun.mpr hrun)

/-- Where a machine runs with no fault, the clauses of R35 on the fault record and on the key wait hold. -/
theorem State.Inv.of_running {t : State} (hrun : t.run = .running) (hcause : t.fault.cause = .none) (hpc : t.PcLegal)
    (hsp : t.SpBounded) (hstack : t.StackLegal) (hreserved : t.ReservedConstant)
    (hmem : t.MemoryCanonical) : t.Inv where
  pcLegal := hpc
  spBounded := hsp
  stackLegal := hstack
  reservedConstant := hreserved
  faultMatchesRun := iff_of_false (by simp [hrun]) (by simp [hcause])
  waitMatchesWord := by simp [State.WaitMatchesWord, hrun]
  memoryCanonical := hmem

/-! ### Load -/

/-- An accepted Load leaves the invariant, whatever was there before (R250). -/
theorem State.inv_load (s : State) {bytes : List Byte} (h : bytes.length ≤ 3584) : (s.load bytes).Inv := by
  rw [State.load_accepted s h]
  refine .of_running rfl rfl (show PcValue 0x200 by decide) (Nat.zero_le _)
    (fun j hj => absurd hj (Nat.not_lt_zero _)) ?_ (wf_programCells h)
  intro a ha
  exact (read_programCells _ a bytes).trans (if_neg (Nat.not_le.mpr ha))

/-- Settles O49: a reset state is what a Load of the empty program leaves. -/
theorem invHoldsAtReset : Obligations.InvHoldsAtReset := by
  have h : ∀ p, (State.resetWith p).Inv := fun p => (State.resetWith p).inv_load (bytes := []) (by decide)
  exact ⟨h, h _⟩

/-! ### Instructions -/

/-- A return: the popped entry was legal, the entries below it stay (R143). -/
theorem State.Inv.returns {s : State} (h : s.Inv) (hrun : s.run = .running) (h0 : s.SP ≠ 0)
    (hd : s.SP.toNat - 1 < Config.stackDepth) (hp : PcValue s.stack[s.SP.toNat - 1].toNat) :
    ({ s with SP := s.SP - 1, pc := s.stack[s.SP.toNat - 1] } : State).Inv := by
  have hpos : s.SP.toNat ≠ 0 := fun hz => h0 (BitVec.eq_of_toNat_eq hz)
  have hsub : (s.SP - 1).toNat = s.SP.toNat - 1 := by bv_omega
  refine .of_running hrun (h.cause_eq_none (by simp [hrun])) hp ?_ ?_ h.reservedConstant h.memoryCanonical
  · exact hsub.trans_le hd.le
  · intro j hj
    exact h.stackLegal j (by simp only [hsub] at hj; omega)

/-- A call: the pushed return address is a legal one, the entries below it stay (R142). -/
theorem State.Inv.calls {s : State} (h : s.Inv) (hrun : s.run = .running) {nnn : Addr12}
    (hd : s.SP.toNat < Config.stackDepth) (hr : s.pc.toNat + 2 ≤ 0xFFE) (hp : PcValue nnn.toNat) :
    ({ s with stack := s.stack.set s.SP.toNat (s.pc + 2) hd, SP := s.SP + 1, pc := nnn.setWidth 16 } : State).Inv := by
  obtain ⟨heven, hlow, -⟩ := h.pcLegal
  have hret : (s.pc + 2).toNat = s.pc.toNat + 2 := toNat_pc_add hr
  have hadd : (s.SP + 1).toNat = s.SP.toNat + 1 := by
    simp only [Config.stackDepth] at hd
    bv_omega
  have htarget : PcValue (nnn.setWidth 16 : Word).toNat := by
    rwa [BitVec.toNat_setWidth_of_le (by decide)]
  refine .of_running hrun (h.cause_eq_none (by simp [hrun])) htarget ?_ ?_ h.reservedConstant h.memoryCanonical
  · exact hadd.trans_le hd
  · intro j hj
    simp only [Vector.getElem_set]
    split
    · rw [hret]
      omega
    · exact h.stackLegal j (by simp only [hadd] at hj; omega)

/-- A block store from the program region leaves the reserved region and the canonical form (R53, R57). -/
theorem State.Inv.stores {s : State} (h : s.Inv) (hrun : s.run = .running) {bs : List Byte} (newI : Word)
    (hlo : 0x200 ≤ s.I.toNat) (hhi : s.I.toNat + bs.length ≤ 4096) (hp : PcValue (s.pc.toNat + 2)) :
    ({ s with mem := (s.withBytes s.I.toNat bs).mem, I := newI, pc := s.pc + 2 } : State).Inv := by
  refine .of_running hrun (h.cause_eq_none (by simp [hrun])) (pcValue_pc_add_two hp) h.spBounded h.stackLegal ?_
    (State.wf_withBytes s _ bs hhi h.memoryCanonical)
  intro a ha
  have hframe : (s.withBytes s.I.toNat bs).params = s.params := by rw [State.withBytes_frame]
  have hread := State.readByte_withBytes s s.I.toNat bs a
  rw [if_neg (by omega), State.readByte, hframe] at hread
  exact hread.trans (h.reservedConstant a ha)

/-- An instruction that stands at `pc` of a running machine keeps the invariant. -/
theorem State.Inv.exec {s t : State} {i : Instr} (h : s.Inv) (hrun : s.run = .running)
    (hword : s.readWord s.pc.toNat = .ok (encode i)) (ht : exec i s = .next t) : t.Inv := by
  have hcause : s.fault.cause = .none := h.cause_eq_none (by simp [hrun])
  have hres := exec_cases i s
  rw [ht] at hres
  cases hres with
  | faults e he => exact h.raise he
  | waits x hi =>
    exact { h with
      faultMatchesRun := iff_of_false nofun (not_not.mpr hcause)
      waitMatchesWord := fun _ => hi ▸ hword }
  | returns hd h0 _ hp => exact h.returns hrun h0 hd hp
  | calls nnn hd _ hr hp => exact h.calls hrun hd hr hp
  | stores bs newI hlo hhi hp _ _ => exact h.stores hrun newI hlo hhi hp
  | updates V newI DT ST disp pc hp _ _ _ _ _ =>
    exact .of_running hrun hcause hp h.spBounded h.stackLegal h.reservedConstant h.memoryCanonical

/-! ### Events -/

theorem State.Inv.supplyKey {s : State} (h : s.Inv) (k : BitVec 4) : (s.supplyKey k).Inv := by
  unfold State.supplyKey
  split
  next hrun =>
    obtain ⟨hp, heq⟩ | ⟨-, heq⟩ := State.advance_cases s { s.setV s.waitX (k.setWidth 8) with run := .running }
    · rw [heq]
      exact .of_running rfl (h.cause_eq_none (by simp [hrun])) (pcValue_pc_add_two hp) h.spBounded h.stackLegal
        h.reservedConstant h.memoryCanonical
    · rw [heq]
      exact h.raise (by simp)
  · exact h
  · exact h

theorem State.Inv.load {s : State} (h : s.Inv) (bytes : List Byte) : (s.load bytes).Inv := by
  by_cases hlen : bytes.length ≤ 3584
  · exact s.inv_load hlen
  · rw [State.load_rejected s (Nat.not_le.mp hlen)]
    exact h

/-- The word that a Step runs is the encoding of the instruction it decodes to, so a key wait stands at its own word. -/
theorem State.Inv.stepEvent {s t : State} (h : s.Inv) {inp : Option Inputs} (ht : stepEvent inp s = .next t) :
    t.Inv := by
  obtain ⟨-, heq⟩ | ⟨-, e, he, heq⟩ | ⟨hrun, w, i, hw, hd, heq⟩ := stepEvent_cases inp s
  · cases heq.symm.trans ht
    exact h
  · cases heq.symm.trans ht
    exact h.raise he
  · exact (h.present inp).exec hrun (by rw [encode_of_decode hd]; exact hw) (heq.symm.trans ht)

theorem State.Inv.applyEvent {s t : State} (h : s.Inv) {e : Event} (ht : applyEvent e s = .next t) : t.Inv := by
  cases e with
  | step keys rnd => exact h.stepEvent ht
  | tick => cases ht; exact h.tick
  | supplyKey k => cases ht; exact h.supplyKey k
  | load bytes => cases ht; exact h.load bytes

/-- What `step` does with an empty schedule and with one that holds an event (R117; log 1). -/
theorem step_of_schedule_nil {s : State} (h : s.schedule = []) : step s = stepEvent none s := by
  simp only [step, nextEvent, h]

theorem step_of_schedule_cons {s : State} {e : Event} {rest : List Event} (h : s.schedule = e :: rest) :
    step s = applyEvent e { s with schedule := rest } := by
  simp only [step, nextEvent, h]

/-- Settles O50: each event keeps the invariant, whichever the schedule puts next. -/
theorem stepKeepsInv : Obligations.StepKeepsInv := by
  intro s t h ht
  cases hs : s.schedule with
  | nil => exact h.stepEvent ((step_of_schedule_nil hs).symm.trans ht)
  | cons e rest => exact (h.setSchedule rest).applyEvent ((step_of_schedule_cons hs).symm.trans ht)

/-- An instruction stops only with a stack pointer above the depth (log 6). -/
theorem exec_answers {s : State} (h : s.SpBounded) (i : Instr) : ∃ t, exec i s = .next t := by
  have hres := exec_cases i s
  generalize exec i s = r at hres
  cases hres with
  | stops hsp => exact absurd hsp (Nat.not_lt.mpr h)
  | _ => exact ⟨_, rfl⟩

theorem stepEvent_answers {s : State} (h : s.SpBounded) (inp : Option Inputs) : ∃ t, stepEvent inp s = .next t := by
  obtain ⟨-, heq⟩ | ⟨-, e, -, heq⟩ | ⟨-, w, i, -, -, heq⟩ := stepEvent_cases inp s
  · exact ⟨_, heq⟩
  · exact ⟨_, heq⟩
  · exact heq ▸ exec_answers (s := s.present inp) h i

/-- Settles O51: only an instruction can stop, and only with a stack pointer the invariant excludes. -/
theorem everyStepAnswers : Obligations.EveryStepAnswers := by
  intro s h
  cases hs : s.schedule with
  | nil => exact step_of_schedule_nil hs ▸ stepEvent_answers h.spBounded none
  | cons e rest =>
    rw [step_of_schedule_cons hs]
    cases e with
    | step keys rnd => exact stepEvent_answers (s := { s with schedule := rest }) h.spBounded _
    | tick => exact ⟨_, rfl⟩
    | supplyKey k => exact ⟨_, rfl⟩
    | load bytes => exact ⟨_, rfl⟩

end Sys2Proof.Machine
end

section
/-! PROOFS. A memory write and the entry of a fault (spec/20_memory.md R53, 60_exceptions.md R212). -/
namespace Sys2Proof.Machine

theorem State.write8_outOfRange {s : State} {a : Nat} {v : Byte} (h : 4096 ≤ a) :
    s.write8 a v = .error ⟨.outOfRange, a⟩ :=
  if_pos h

theorem State.write8_reserved {s : State} {a : Nat} {v : Byte} (h : a < 0x200) :
    s.write8 a v = .error ⟨.reservedWrite, a⟩ :=
  (if_neg (by simp only [Config.memSize]; omega)).trans (if_pos h)

theorem State.write8_ok {s : State} {a : Nat} {v : Byte} (hlo : 0x200 ≤ a) (hhi : a < 4096) :
    s.write8 a v = .ok { s with mem := s.mem.write s.params.fontBase a v } :=
  (if_neg (Nat.not_le.mpr hhi)).trans (if_neg (Nat.not_lt.mpr hlo))

/-- Settles O8, from the two refusals of a write and `Memory.read_write` for the write that goes through. -/
theorem memWriteChangesOneByte : Obligations.MemWriteChangesOneByte := by
  intro s a v
  exact ⟨State.write8_outOfRange, State.write8_reserved,
    fun hlo hhi => ⟨_, State.write8_ok hlo hhi, rfl, fun b => Memory.read_write s.mem a b v⟩⟩

theorem State.wordAtPc_of_ok {s : State} {w : Word} (h : s.readWord s.pc.toNat = .ok w) : s.wordAtPc = w := by
  simp only [State.wordAtPc, h]

theorem State.wordAtPc_of_error {s : State} {e : Raised} (h : s.readWord s.pc.toNat = .error e) : s.wordAtPc = 0 := by
  simp only [State.wordAtPc, h]

/-- Settles O9: the record's fields are read off `State.raise`, its word off what the read at `pc` answers. -/
theorem faultEntryWritesRecordOnly : Obligations.FaultEntryWritesRecordOnly := by
  intro s e hinfo
  have hfits : (BitVec.ofNat 17 e.info).toNat = e.info := by
    rw [BitVec.toNat_ofNat, Nat.mod_eq_of_lt hinfo]
  exact ⟨rfl, rfl, rfl, fun w hw => State.wordAtPc_of_ok hw, fun r hr => State.wordAtPc_of_error hr, hfits, rfl, rfl⟩

end Sys2Proof.Machine
end

section
/-! PROOFS. Control transfer: SYS, JP, CALL, RET, JP V0 and the six skips (spec/41_flow.md, 42_skips.md). -/
namespace Sys2Proof.Machine

/-! ### SetPC refused (R113) -/

theorem State.setPC_haltedBy (s after : State) {t : Nat} (h : ¬ PcValue t) : HaltedBy s (s.setPC t after) .badPC t := by
  rw [State.setPC_refused s after h]
  exact s.raise_haltedBy _ _

/-- At `0xFFE` no instruction can advance. -/
theorem State.advance_haltedBy_atTop {s : State} (after : State) (h : s.pc = 0xFFE) :
    HaltedBy s (s.advance after) .badPC 0x1000 := by
  have htarget : s.pc.toNat + 2 = 0x1000 := by rw [h]; rfl
  rw [State.advance, htarget]
  exact s.setPC_haltedBy after (by decide)

/-! ### SYS and the jumps (R140, R141, R144) -/

theorem execSys_nop {s : State} {nnn : Addr12} (h : s.params.sysPolicy = .nop) :
    execSys nnn s = .next (s.advance s) := by
  simp only [execSys, h]

theorem execSys_fatal {s : State} {nnn : Addr12} (h : s.params.sysPolicy = .fatal) :
    execSys nnn s = .next (s.raise ⟨.sysTrap, nnn.toNat⟩) := by
  simp only [execSys, h]

/-- Settles O10: the two policies are the two branches of SYS. -/
theorem sysAdvancesOrTraps : Obligations.SysAdvancesOrTraps := by
  intro nnn s
  refine ⟨fun hpolicy hadv => ?_, fun hpolicy => ⟨_, execSys_fatal hpolicy, s.raise_haltedBy _ _⟩⟩
  exact (execSys_nop hpolicy).trans (congrArg _ (s.advance_ok s hadv))

theorem State.setPC_addr12 (s after : State) {nnn : Addr12} (h : PcValue nnn.toNat) :
    s.setPC nnn.toNat after = { after with pc := nnn.setWidth 16 } := by
  rw [State.setPC_legal s after h, BitVec.ofNat_toNat]

/-- Settles O11: JP is SetPC of its target. -/
theorem jpSetsPcOrFaults : Obligations.JpSetsPcOrFaults := by
  intro nnn s
  exact ⟨fun h => congrArg Host.Outcome.next (s.setPC_addr12 s h), fun h => ⟨_, rfl, s.setPC_haltedBy s h⟩⟩

/-- Settles O17: JP V0 is SetPC of the sum, which as a legal `pc` fits in 16 bits. -/
theorem jpV0AddsUnmasked : Obligations.JpV0AddsUnmasked := by
  intro nnn s
  refine ⟨fun h => ?legal, fun h => ⟨_, rfl, s.setPC_haltedBy s h⟩⟩
  case legal =>
    have hexec : exec (.jpV0 nnn) s = .next { s with pc := BitVec.ofNat 16 (nnn.toNat + (s.getV 0).toNat) } :=
      congrArg Host.Outcome.next (s.setPC_legal s h)
    refine ⟨_, hexec, ?_, rfl⟩
    rw [BitVec.toNat_ofNat, Nat.mod_eq_of_lt (by omega)]

/-! ### CALL, check by check (R142, R214) -/

section
variable {s : State} {nnn : Addr12}

theorem execCall_full (h : s.SP.toNat = Config.stackDepth) :
    execCall nnn s = .next (s.raise ⟨.stackOverflow, s.SP.toNat⟩) :=
  if_pos h

theorem execCall_badReturn (hsp : s.SP.toNat ≠ Config.stackDepth) (h : 0xFFE < s.pc.toNat + 2) :
    execCall nnn s = .next (s.raise ⟨.badPC, s.pc.toNat + 2⟩) :=
  (if_neg hsp).trans (if_pos h)

/-- CALL's own test of its target refuses what SetPC refuses. -/
theorem not_pcValue_addr12_iff : ¬ PcValue nnn.toNat ↔ nnn.toNat % 2 = 1 ∨ nnn.toNat < Config.programBase := by
  have := nnn.isLt
  simp only [Config.programBase]
  omega

theorem execCall_badTarget (hsp : s.SP.toNat ≠ Config.stackDepth) (hret : s.pc.toNat + 2 ≤ 0xFFE)
    (h : ¬ PcValue nnn.toNat) : execCall nnn s = .next (s.raise ⟨.badPC, nnn.toNat⟩) :=
  (if_neg hsp).trans ((if_neg (Nat.not_lt.mpr hret)).trans (if_pos (not_pcValue_addr12_iff.mp h)))

theorem execCall_noEntry (hsp : Config.stackDepth < s.SP.toNat) (hret : s.pc.toNat + 2 ≤ 0xFFE)
    (h : PcValue nnn.toNat) : execCall nnn s = .fault .noStackEntry := by
  have htarget : ¬ (nnn.toNat % 2 = 1 ∨ nnn.toNat < Config.programBase) := fun hn => not_pcValue_addr12_iff.mpr hn h
  have hpush : s.push (BitVec.ofNat 16 (s.pc.toNat + 2)) = none := dif_neg (Nat.not_lt.mpr hsp.le)
  simp only [execCall, if_neg hsp.ne', if_neg (Nat.not_lt.mpr hret), if_neg htarget, hpush]

theorem execCall_goes (hsp : s.SP.toNat < Config.stackDepth) (hret : s.pc.toNat + 2 ≤ 0xFFE) (h : PcValue nnn.toNat) :
    execCall nnn s =
      .next { s with stack := s.stack.set s.SP.toNat (s.pc + 2) hsp, SP := s.SP + 1, pc := nnn.setWidth 16 } := by
  have htarget : ¬ (nnn.toNat % 2 = 1 ∨ nnn.toNat < Config.programBase) := fun hn => not_pcValue_addr12_iff.mpr hn h
  simp only [execCall, if_neg hsp.ne, if_neg (Nat.not_lt.mpr hret), if_neg htarget, s.push_ok _ hsp,
    State.setPC_addr12 _ _ h, pc_plus,
    BitVec.ofNat_eq_ofNat]

end

/-- Settles O12: the branch of CALL that all its checks let through. -/
theorem callPushesReturnAddress : Obligations.CallPushesReturnAddress :=
  fun _ _ hsp hret h => execCall_goes hsp hret h

/-- Settles O13: one clause for each check of CALL, in their order. -/
theorem callFaultsInOrder : Obligations.CallFaultsInOrder := by
  intro nnn s
  have hsp : s.SP ≠ 16 → s.SP.toNat ≠ Config.stackDepth := fun h hn => h (BitVec.eq_of_toNat_eq hn)
  refine ⟨fun h => ?full, fun h hret => ⟨_, execCall_badReturn (hsp h) hret, s.raise_haltedBy _ _⟩,
    fun h hret hbad => ⟨_, execCall_badTarget (hsp h) hret hbad, s.raise_haltedBy _ _⟩⟩
  case full =>
    have hfull : s.SP.toNat = 16 := by rw [h]; rfl
    exact ⟨_, (execCall_full hfull).trans (by rw [hfull]), s.raise_haltedBy _ _⟩

/-! ### RET (R143) -/

section
variable {s : State}

theorem execRet_empty (h : s.SP = 0) : execRet s = .next (s.raise ⟨.stackUnderflow, 0⟩) :=
  if_pos h

theorem execRet_noEntry (h : Config.stackDepth < s.SP.toNat) : execRet s = .fault .noStackEntry := by
  obtain ⟨h0, -⟩ | ⟨heq, -⟩ | ⟨hd, -, -⟩ := execRet_cases s
  · simp [h0] at h
  · exact heq
  · omega

theorem execRet_pops (hd : s.SP.toNat - 1 < Config.stackDepth) (h0 : s.SP ≠ 0) :
    execRet s = .next (s.setPC s.stack[s.SP.toNat - 1].toNat { s with SP := s.SP - 1 }) := by
  obtain ⟨hz, -⟩ | ⟨-, hn⟩ | ⟨_, -, heq⟩ := execRet_cases s
  · exact absurd hz h0
  · exact absurd hd (Nat.not_lt.mpr hn)
  · exact heq

end

/-- Settles O14: RET is SetPC of the popped entry. -/
theorem retPopsIntoPc : Obligations.RetPopsIntoPc := by
  intro s
  refine ⟨fun h => ⟨_, execRet_empty h, s.raise_haltedBy _ _⟩, fun hd h0 hp => ?legal, fun hd h0 hp => ?refused⟩
  case legal =>
    refine (execRet_pops hd h0).trans ?_
    rw [State.setPC_legal _ _ hp, BitVec.ofNat_toNat, BitVec.setWidth_eq]
  case refused => exact ⟨_, execRet_pops hd h0, s.setPC_haltedBy _ hp⟩

/-- Settles O16: the branches of CALL and RET that find no entry. -/
theorem stackPointerBeyondDepthStops : Obligations.StackPointerBeyondDepthStops :=
  fun _ _ hsp => ⟨execCall_noEntry hsp, execRet_noEntry hsp⟩

/-- RET where the entry that counts last is known: `k` entries lie below it. -/
theorem execRet_of_top {t : State} {k : Nat} {p : Word} (hk : t.SP.toNat = k + 1) (hd : k < Config.stackDepth)
    (htop : t.stack[k] = p) (hp : PcValue p.toNat) : execRet t = .next { t with SP := t.SP - 1, pc := p } := by
  have hlast : t.SP.toNat - 1 = k := by omega
  have h0 : t.SP ≠ 0 := fun h => by simp [h] at hk
  rw [execRet_pops (hlast.trans_lt hd) h0]
  simp only [hlast, htop, State.setPC_legal _ _ hp, BitVec.ofNat_toNat, BitVec.setWidth_eq]

/-- Settles O15: RET takes the entry that CALL has just written. -/
theorem callThenRetReturns : Obligations.CallThenRetReturns := by
  intro nnn s hsp hadv htarget
  obtain ⟨heven, hlow, hret⟩ := hadv
  have hinc : (s.SP + 1).toNat = s.SP.toNat + 1 := by
    simp only [Config.stackDepth] at hsp
    bv_omega
  have hlegal : PcValue (s.pc + 2).toNat := pcValue_pc_add_two ⟨by omega, hlow, hret⟩
  have hcall := execCall_goes hsp hret htarget
  refine ⟨_, _, hcall, execRet_of_top hinc hsp (Vector.getElem_set_self _) hlegal, ?_, fun j hj => ?_⟩
  · simp only [BitVec.add_sub_cancel]
  · exact Vector.getElem_set_ne hsp j.isLt hj.symm

/-! ### The skips (R150 to R155) -/

/-- An instruction that closes as a conditional skip on `c` skips on `c`. -/
theorem skipsOn_of_skipIf {i : Instr} {s : State} {b : Bool} {c : Prop} (hexec : exec i s = .next (s.skipIf b))
    (hb : b = true ↔ c) : SkipsOn i s c := by
  refine ⟨fun hc hskip => ?taken, fun hc hadv => ?notTaken⟩
  case taken =>
    rw [hexec, hb.mpr hc]
    exact congrArg Host.Outcome.next (s.skip_ok s hskip)
  case notTaken =>
    rw [hexec, Bool.eq_false_iff.mpr (mt hb.mp hc)]
    exact congrArg Host.Outcome.next (s.advance_ok s hadv)

/-- Settles O18: each of the four closes by `State.skipIf` on its own comparison. -/
theorem registerSkipsOnCondition : Obligations.RegisterSkipsOnCondition := by
  intro x y kk s
  exact ⟨skipsOn_of_skipIf (b := s.getV x == kk) rfl beq_iff_eq, skipsOn_of_skipIf (b := s.getV x != kk) rfl bne_iff_ne,
    skipsOn_of_skipIf (b := s.getV x == s.getV y) rfl beq_iff_eq,
    skipsOn_of_skipIf (b := s.getV x != s.getV y) rfl bne_iff_ne⟩

/-- Settles O19: both close by `State.skipIf` on the level of the named key, SKNP on its negation. -/
theorem keySkipsOnLevel : Obligations.KeySkipsOnLevel := by
  intro x s
  exact ⟨skipsOn_of_skipIf (b := s.keyDown x) rfl (by rw [State.keyDown_eq]),
    skipsOn_of_skipIf (b := !s.keyDown x) rfl (by rw [Bool.not_eq_true', State.keyDown_eq])⟩

end Sys2Proof.Machine
end

section
/-! PROOFS. The instructions that write one register, a result and a flag, `I`, a timer or the display, and close by
Advance (spec/43_alu.md, 44_index_memory.md, 45_display.md, 46_timers_keys.md). -/
namespace Sys2Proof.Machine

/-! ### One register (R160 to R165, R171, R200) -/

section
variable {i : Instr} {s : State} {x : Reg}

theorem writesRegister_of_setV {v : Byte} (hexec : exec i s = .next (s.advance (s.setV x v))) (hadv : s.CanAdvance) :
    WritesRegister i s x v :=
  ⟨_, hexec.trans (congrArg _ (s.advance_ok _ hadv)), s.getV_setV_same x v, fun _ hr => s.getV_setV_ne v hr, rfl⟩

/-- The result in `V[x]`, the flag in `VF` where that is another register (R172). -/
theorem writesResultAndFlag_of_writeFlagged {fr : Byte × Byte} {result flag : Nat}
    (hexec : exec i s = .next (s.advance (s.writeFlagged x fr))) (hadv : s.CanAdvance) (hresult : fr.2.toNat = result)
    (hflag : fr.1.toNat = flag) : WritesResultAndFlag i s x result flag := by
  refine ⟨_, hexec.trans (congrArg _ (s.advance_ok _ hadv)), ?result, fun hx => ?flag, fun r hx hF => ?others, rfl⟩
  case result => exact (congrArg _ ((s.getV_writeFlagged x x fr).trans (if_pos rfl))).trans hresult
  case flag =>
    exact (congrArg _ ((s.getV_writeFlagged x VF fr).trans ((if_neg hx.symm).trans (if_pos rfl)))).trans hflag
  case others => exact (s.getV_writeFlagged x r fr).trans ((if_neg hx).trans (if_neg hF))

theorem writesIndex_of_advance {v : Word} {n : Nat} (hexec : exec i s = .next (s.advance { s with I := v }))
    (hadv : s.CanAdvance) (hv : v.toNat = n) : WritesIndex i s n :=
  ⟨_, hexec.trans (congrArg _ (s.advance_ok _ hadv)), hv, rfl⟩

end

/-- Settles O21: each is one register write closed by Advance. -/
theorem loadsWriteDestination : Obligations.LoadsWriteDestination := by
  intro x y kk s hadv
  exact ⟨writesRegister_of_setV rfl hadv, writesRegister_of_setV rfl hadv, writesRegister_of_setV rfl hadv,
    writesRegister_of_setV rfl hadv⟩

/-- Settles O22: one register write, of a sum that `BitVec` reduces. -/
theorem addImmWrapsWithoutFlag : Obligations.AddImmWrapsWithoutFlag := by
  intro x kk s hadv
  exact ⟨s.getV x + kk, BitVec.toNat_add _ _, writesRegister_of_setV rfl hadv⟩

/-- Settles O23: one register write each, whose bits `BitVec` gives one by one. -/
theorem bitwiseActsBitByBit : Obligations.BitwiseActsBitByBit := by
  intro x y s hadv
  exact ⟨⟨_, fun k _ => BitVec.getLsbD_or, writesRegister_of_setV rfl hadv⟩,
    ⟨_, fun k _ => BitVec.getLsbD_and, writesRegister_of_setV rfl hadv⟩,
    ⟨_, fun k _ => BitVec.getLsbD_xor, writesRegister_of_setV rfl hadv⟩⟩

/-! ### A result and a flag (R166 to R173) -/

theorem flagByte_decide_toNat (p : Prop) [Decidable p] : (flagByte (decide p)).toNat = if p then 1 else 0 := by
  simp only [flagByte_toNat, decide_eq_true_eq]

theorem flagByte_getLsbD_toNat (b : Byte) (k : Nat) : (flagByte (b.getLsbD k)).toNat = b.toNat / 2 ^ k % 2 := by
  rw [flagByte_toNat, BitVec.getLsbD, Nat.testBit_eq_decide_div_mod_eq]
  simp only [decide_eq_true_eq]
  generalize b.toNat / 2 ^ k = q
  split <;> omega

/-- Settles O24: the sum and the carry are those of `addFlagged`. -/
theorem addRegSumAndCarry : Obligations.AddRegSumAndCarry := by
  intro x y s hadv
  exact writesResultAndFlag_of_writeFlagged rfl hadv (addFlagged_sum _ _) (flagByte_decide_toNat _)

/-- Settles O25: SUB and SUBN are `subFlagged` with its operands in either order. -/
theorem subtractionsDifferenceAndNotBorrow : Obligations.SubtractionsDifferenceAndNotBorrow := by
  intro x y s hadv
  exact ⟨writesResultAndFlag_of_writeFlagged rfl hadv (subFlagged_difference _ _) (flagByte_decide_toNat _),
    writesResultAndFlag_of_writeFlagged rfl hadv (subFlagged_difference _ _) (flagByte_decide_toNat _)⟩

/-- Settles O26: the flag is the bit at the end the shift leaves by. -/
theorem shiftsReadVy : Obligations.ShiftsReadVy := by
  intro x y s hadv
  have hbit0 : (shrFlagged (s.getV y)).1.toNat = (s.getV y).toNat % 2 := by
    rw [shrFlagged, flagByte_getLsbD_toNat, pow_zero, Nat.div_one]
  have hbit7 : (shlFlagged (s.getV y)).1.toNat = (s.getV y).toNat / 128 := by
    have := (s.getV y).isLt
    rw [shlFlagged, flagByte_getLsbD_toNat]
    omega
  exact ⟨writesResultAndFlag_of_writeFlagged rfl hadv (shrFlagged_result _) hbit0,
    writesResultAndFlag_of_writeFlagged rfl hadv (shlFlagged_result _) hbit7⟩

/-! ### `I` (R180 to R182), the display (R190), the timers and the key wait (R201 to R203) -/

/-- Settles O28: each is one write of `I` closed by Advance. -/
theorem indexInstructionsWriteI : Obligations.IndexInstructionsWriteI := by
  intro nnn x s hadv
  have hsum : (s.I + (s.getV x).setWidth 16).toNat = (s.I.toNat + (s.getV x).toNat) % 65536 := by
    rw [BitVec.toNat_add, BitVec.toNat_setWidth_of_le (by decide)]
  exact ⟨writesIndex_of_advance rfl hadv (BitVec.toNat_setWidth_of_le (by decide)),
    writesIndex_of_advance rfl hadv hsum, writesIndex_of_advance rfl hadv (glyphAddress_toNat _ _)⟩

/-- What CLS leaves where it can advance (R190). -/
theorem exec_cls {s : State} (hadv : s.CanAdvance) :
    exec .cls s = .next { s with disp := Display.blank, pc := s.pc + 2 } :=
  congrArg Host.Outcome.next (s.advance_ok _ hadv)

/-- What any CLS leaves on the display, from a state whose display is blank already. -/
theorem disp_blank_of_exec_cls {s t : State} (hblank : s.disp = Display.blank) (ht : exec .cls s = .next t) :
    t.disp = Display.blank := by
  obtain ⟨-, heq⟩ | ⟨-, heq⟩ := s.advance_cases { s with disp := Display.blank }
  · cases (congrArg Host.Outcome.next heq).symm.trans ht
    rfl
  · cases (congrArg Host.Outcome.next heq).symm.trans ht
    exact hblank

/-- Settles O35: a second CLS that faults leaves the blank display too. -/
theorem clsBlanksDisplay : Obligations.ClsBlanksDisplay := by
  intro s hadv
  exact ⟨_, exec_cls hadv, Display.lit_blank, rfl, fun u hu => disp_blank_of_exec_cls rfl hu⟩

/-- Settles O38: each is one timer write closed by Advance. -/
theorem timerWritesSetTimers : Obligations.TimerWritesSetTimers := by
  intro x s hadv
  exact ⟨congrArg Host.Outcome.next (s.advance_ok _ hadv), congrArg Host.Outcome.next (s.advance_ok _ hadv)⟩

/-- Settles O39: this is the meaning of LD Vx, K. -/
theorem keyWaitBegins : Obligations.KeyWaitBegins := fun _ _ => rfl

/-! ### The same instructions at the top of memory (R113) -/

/-- The instructions with no check of their own close by Advance, whatever they write. -/
theorem exec_of_plainAdvance {i : Instr} {s : State} (hplain : plainAdvance i)
    (hsys : ∀ nnn, i = .sys nnn → s.params.sysPolicy = .nop) : ∃ after, exec i s = .next (s.advance after) := by
  cases i with
  | sys nnn => exact ⟨s, execSys_nop (hsys nnn rfl)⟩
  | cls => exact ⟨_, rfl⟩
  | ldImm x kk => exact ⟨_, rfl⟩
  | addImm x kk => exact ⟨_, rfl⟩
  | ldReg x y => exact ⟨_, rfl⟩
  | orReg x y => exact ⟨_, rfl⟩
  | andReg x y => exact ⟨_, rfl⟩
  | xorReg x y => exact ⟨_, rfl⟩
  | addReg x y => exact ⟨_, rfl⟩
  | sub x y => exact ⟨_, rfl⟩
  | shr x y => exact ⟨_, rfl⟩
  | subn x y => exact ⟨_, rfl⟩
  | shl x y => exact ⟨_, rfl⟩
  | ldI nnn => exact ⟨_, rfl⟩
  | rnd x kk => exact ⟨_, rfl⟩
  | ldVxDT x => exact ⟨_, rfl⟩
  | ldDTVx x => exact ⟨_, rfl⟩
  | ldSTVx x => exact ⟨_, rfl⟩
  | addI x => exact ⟨_, rfl⟩
  | ldF x => exact ⟨_, rfl⟩
  | _ => exact hplain.elim

/-- Settles O27: the refused Advance takes its fault in the state before the instruction. -/
theorem plainInstructionsFaultAtTop : Obligations.PlainInstructionsFaultAtTop := by
  intro i s hplain hsys hpc
  obtain ⟨after, hexec⟩ := exec_of_plainAdvance hplain hsys
  exact ⟨_, hexec, s.advance_haltedBy_atTop after hpc⟩

end Sys2Proof.Machine
end

section
/-! PROOFS. The block transfers: what they store and load, and what they raise (spec/44_index_memory.md R183 to R185,
20_memory.md R57, R58). -/
namespace Sys2Proof.Machine

/-! ### The bytes at `I` -/

/-- The `len` bytes from `I` upward, as a block load answers them (`State.loadBytes_ok`). -/
def State.block (s : State) (len : Nat) : List Byte := (List.range len).map fun k => s.readByte (s.I.toNat + k)

@[simp] theorem State.block_length (s : State) (len : Nat) : (s.block len).length = len := by
  simp [State.block]

theorem State.block_getElem (s : State) {len k : Nat} (h : k < (s.block len).length) :
    (s.block len)[k] = s.readByte (s.I.toNat + k) := by
  simp [State.block]

theorem State.loadBytes_block {s : State} {len : Nat} (h : s.I.toNat + len ≤ 4096) :
    s.loadBytes s.I.toNat len = .ok (s.block len) :=
  s.loadBytes_ok _ _ h

/-! ### How each transfer closes -/

section
variable {s : State} {x y : Reg}

theorem exec_ldB_of_store {after : State} (h : s.storeBytes s.I.toNat (decimalDigits (s.getV x)) = .ok after) :
    exec (.ldB x) s = .next (s.advance after) := by
  simp only [exec, execLdB, h, State.advanceOr]

theorem exec_ldB_of_raise {e : Raised} (h : s.storeBytes s.I.toNat (decimalDigits (s.getV x)) = .error e) :
    exec (.ldB x) s = .next (s.raise e) := by
  simp only [exec, execLdB, h, State.advanceOr]

theorem exec_storeRegs_of_store {after : State} (h : s.storeBytes s.I.toNat (s.regsUpTo x) = .ok after) :
    exec (.storeRegs x) s = .next (s.advance { after with I := s.indexAfterBlock x }) := by
  simp only [exec, execStoreRegs, h, State.advanceOr]

theorem exec_storeRegs_of_raise {e : Raised} (h : s.storeBytes s.I.toNat (s.regsUpTo x) = .error e) :
    exec (.storeRegs x) s = .next (s.raise e) := by
  simp only [exec, execStoreRegs, h, State.advanceOr]

theorem exec_loadRegs_of_load {t : List Byte} (h : s.loadBytes s.I.toNat (x.val + 1) = .ok t) :
    exec (.loadRegs x) s = .next (s.advance { s.setRegs t with I := s.indexAfterBlock x }) := by
  simp only [exec, execLoadRegs, h, State.advanceOr]

theorem exec_loadRegs_of_raise {e : Raised} (h : s.loadBytes s.I.toNat (x.val + 1) = .error e) :
    exec (.loadRegs x) s = .next (s.raise e) := by
  simp only [exec, execLoadRegs, h, State.advanceOr]

/-- The state a draw of the sprite leaves before it advances (R191). -/
def State.drawn (s : State) (x y : Reg) (sprite : List Byte) : State :=
  let result := s.disp.draw false (spritePixels (s.getV x).toNat (s.getV y).toNat sprite)
  { s.setV VF (flagByte result.2) with disp := result.1 }

theorem exec_drw_of_load {n : Fin 16} {sprite : List Byte} (h : s.loadBytes s.I.toNat n.val = .ok sprite) :
    exec (.drw x y n) s = .next (s.advance (s.drawn x y sprite)) := by
  simp only [exec, execDrw, h, State.advanceOr, State.drawn]

theorem exec_drw_of_raise {n : Fin 16} {e : Raised} (h : s.loadBytes s.I.toNat n.val = .error e) :
    exec (.drw x y n) s = .next (s.raise e) := by
  simp only [exec, execDrw, h, State.advanceOr]

/-! ### Blocks inside memory -/

theorem exec_ldB_inRegion (hlo : 0x200 ≤ s.I.toNat) (hhi : s.I.toNat + 2 < 4096) :
    exec (.ldB x) s = .next (s.advance (s.withBytes s.I.toNat (decimalDigits (s.getV x)))) :=
  exec_ldB_of_store (s.storeBytes_ok _ _ hlo (by rw [decimalDigits_length]; omega))

theorem exec_storeRegs_inRegion (hlo : 0x200 ≤ s.I.toNat) (hhi : s.I.toNat + x.val < 4096) :
    exec (.storeRegs x) s =
      .next (s.advance { s.withBytes s.I.toNat (s.regsUpTo x) with I := s.indexAfterBlock x }) :=
  exec_storeRegs_of_store (s.storeBytes_ok _ _ hlo (by rw [State.regsUpTo_length]; omega))

theorem exec_loadRegs_inMemory (hhi : s.I.toNat + x.val < 4096) :
    exec (.loadRegs x) s =
      .next (s.advance { s.setRegs (s.block (x.val + 1)) with I := s.indexAfterBlock x }) :=
  exec_loadRegs_of_load (State.loadBytes_block (by omega))

theorem exec_drw_inMemory {n : Fin 16} (h : n = 0 ∨ s.I.toNat + n.val - 1 < 4096) :
    exec (.drw x y n) s = .next (s.advance (s.drawn x y (s.block n.val))) := by
  obtain h0 | hpos := Nat.eq_zero_or_pos n.val
  · exact exec_drw_of_load (by rw [h0]; rfl)
  · have hn : n ≠ 0 := fun hn => hpos.ne' (congrArg Fin.val hn)
    have hin := h.resolve_left hn
    exact exec_drw_of_load (State.loadBytes_block (by omega))

end

/-! ### What a block store leaves in memory -/

/-- A block store leaves every byte outside the block. -/
theorem State.readByte_withBytes_outside (s : State) (a : Nat) (bs : List Byte) {c : Nat}
    (h : c < a ∨ a + bs.length ≤ c) : (s.withBytes a bs).readByte c = s.readByte c := by
  rw [State.readByte_withBytes]
  obtain hlt | hge := h
  · exact if_neg (Nat.not_le.mpr hlt)
  · rw [if_pos (by omega), List.getD_eq_default _ _ (by omega)]

/-- A block store puts each byte of the block at its place. -/
theorem State.readByte_withBytes_inside (s : State) (a : Nat) (bs : List Byte) {k : Nat} (h : k < bs.length) :
    (s.withBytes a bs).readByte (a + k) = bs[k] := by
  rw [State.readByte_withBytes, if_pos (Nat.le_add_right a k), Nat.add_sub_cancel_left, List.getD_eq_getElem _ _ h]

/-- The decimal digits of a byte fit in a byte each (R183). -/
theorem decimalDigits_toNat (v : Byte) :
    (decimalDigits v).map BitVec.toNat = [v.toNat / 100, v.toNat / 10 % 10, v.toNat % 10] := by
  have := v.isLt
  simp only [decimalDigits, List.map_cons, List.map_nil, BitVec.toNat_ofNat, List.cons.injEq, and_true]
  omega

/-- Settles O29: the block stored is the list of the three digits. -/
theorem bcdStoresDigits : Obligations.BcdStoresDigits := by
  intro x s hadv hlo hhi
  have hdigit : ∀ k (h : k < (decimalDigits (s.getV x)).length),
      ((s.withBytes s.I.toNat (decimalDigits (s.getV x))).readByte (s.I.toNat + k)).toNat =
        ((decimalDigits (s.getV x)).map BitVec.toNat)[k]'(by rwa [List.length_map]) := by
    intro k h
    rw [s.readByte_withBytes_inside _ _ h, List.getElem_map]
  simp only [decimalDigits_toNat] at hdigit
  refine ⟨_, (exec_ldB_inRegion hlo hhi).trans (congrArg _ (s.advance_ok _ hadv)), ?frame,
    hdigit 0 (Nat.zero_lt_succ _), hdigit 1 (by simp [decimalDigits]), hdigit 2 (by simp [decimalDigits]), ?outside⟩
  case frame => rw [State.withBytes_frame]
  case outside =>
    intro a ha
    exact s.readByte_withBytes_outside _ _ (by rw [decimalDigits_length]; omega)

/-- Settles O30: the block stored is the list of `V[0]` to `V[x]`. -/
theorem storeRegsWritesBlock : Obligations.StoreRegsWritesBlock := by
  intro x s hadv hlo hhi
  refine ⟨_, (exec_storeRegs_inRegion hlo hhi).trans (congrArg _ (s.advance_ok _ hadv)), ?frame, ?inside, ?outside,
    s.indexAfterBlock_toNat x⟩
  case frame => rw [State.withBytes_frame]
  case inside =>
    intro r hr
    refine (s.readByte_withBytes_inside s.I.toNat (s.regsUpTo x) (by rw [State.regsUpTo_length]; omega)).trans ?_
    rw [← List.getD_eq_getElem _ 0, State.regsUpTo_getD s x r 0 hr]
  case outside =>
    intro a ha
    exact s.readByte_withBytes_outside _ _ (by rw [State.regsUpTo_length]; omega)

/-- Settles O31: the registers up to `x` take the block at `I` byte by byte. -/
theorem loadRegsReadsBlock : Obligations.LoadRegsReadsBlock := by
  intro x s hadv hhi
  refine ⟨_, (exec_loadRegs_inMemory hhi).trans (congrArg _ (s.advance_ok _ hadv)), rfl, ?upTo, ?above,
    s.indexAfterBlock_toNat x⟩
  case upTo =>
    intro r hr
    have hlen : r.val < (s.block (x.val + 1)).length := by rw [State.block_length]; omega
    refine (s.getV_setRegs _ r).trans ?_
    rw [List.getD_eq_getElem _ _ hlen, State.block_getElem]
  case above =>
    intro r hr
    exact (s.getV_setRegs _ r).trans (List.getD_eq_default _ _ (by rw [State.block_length]; omega))

/-- A byte read depends on memory and on `FONT_BASE` alone. -/
theorem State.readByte_congr {s t : State} (hmem : s.mem = t.mem) (hparams : s.params = t.params) (a : Nat) :
    s.readByte a = t.readByte a := by
  rw [State.readByte, State.readByte, hmem, hparams]

/-- Settles O34: each register is loaded from the byte it was stored to. -/
theorem storeThenLoadRestoresRegisters : Obligations.StoreThenLoadRestoresRegisters := by
  intro x s t u hlo hhi hs hu ht hI hmem hparams
  obtain ⟨t', ht', -, hstored, -, -⟩ := storeRegsWritesBlock x s hs hlo hhi
  obtain rfl : t' = t := Host.Outcome.next.inj (ht'.symm.trans ht)
  obtain ⟨v, hv, -, hloaded, -, -⟩ := loadRegsReadsBlock x u hu (hI ▸ hhi)
  refine ⟨v, hv, fun r hr => ?_⟩
  calc v.getV r = u.readByte (u.I.toNat + r.val) := hloaded r hr
    _ = t'.readByte (s.I.toNat + r.val) := by rw [hI, State.readByte_congr hmem hparams]
    _ = s.getV r := hstored r hr

/-! ### Faults (R58, R214) -/

theorem State.regsUpTo_ne_nil (s : State) (x : Reg) : s.regsUpTo x ≠ [] :=
  List.ne_nil_of_length_pos (by rw [State.regsUpTo_length]; omega)

/-- Settles O32: the block access raises before anything is read, stored or drawn. -/
theorem blockTransfersFault : Obligations.BlockTransfersFault := by
  intro x y n s
  have hx := x.isLt
  refine ⟨fun h => ?ldB, fun h => ⟨_, exec_ldB_of_raise (s.storeBytes_reserved _ _ nofun h), s.raise_haltedBy _ _⟩,
    fun h => ?storeRegs,
    fun h => ⟨_, exec_storeRegs_of_raise (s.storeBytes_reserved _ _ (s.regsUpTo_ne_nil x) h), s.raise_haltedBy _ _⟩,
    fun h => ?loadRegs, fun hn h => ?drw⟩
  case ldB =>
    have hraise := s.storeBytes_outOfRange s.I.toNat (decimalDigits (s.getV x)) (by omega) nofun
      (by rw [decimalDigits_length]; omega)
    exact ⟨_, exec_ldB_of_raise hraise, s.raise_haltedBy _ _⟩
  case storeRegs =>
    have hraise := s.storeBytes_outOfRange s.I.toNat (s.regsUpTo x) (by omega) (s.regsUpTo_ne_nil x)
      (by rw [State.regsUpTo_length]; omega)
    exact ⟨_, exec_storeRegs_of_raise hraise, s.raise_haltedBy _ _⟩
  case loadRegs =>
    have hraise := s.loadBytes_outOfRange s.I.toNat (x.val + 1) (Nat.succ_pos _) (by omega)
    exact ⟨_, exec_loadRegs_of_raise hraise, s.raise_haltedBy _ _⟩
  case drw =>
    have hpos : 0 < n.val := Fin.pos_iff_ne_zero.mpr hn
    have hraise := s.loadBytes_outOfRange s.I.toNat n.val hpos (by omega)
    exact ⟨_, exec_drw_of_raise hraise, s.raise_haltedBy _ _⟩

/-- Settles O33: the transfer itself goes through, and the Advance after it is refused. -/
theorem blockTransfersFaultAtTop : Obligations.BlockTransfersFaultAtTop := by
  intro x y n s hpc
  exact ⟨fun hlo hhi => ⟨_, exec_ldB_inRegion hlo hhi, s.advance_haltedBy_atTop _ hpc⟩,
    fun hlo hhi => ⟨_, exec_storeRegs_inRegion hlo hhi, s.advance_haltedBy_atTop _ hpc⟩,
    fun hhi => ⟨_, exec_loadRegs_inMemory hhi, s.advance_haltedBy_atTop _ hpc⟩,
    fun h => ⟨_, exec_drw_inMemory h, s.advance_haltedBy_atTop _ hpc⟩⟩

end Sys2Proof.Machine
end

section
/-! PROOFS. DRW: the pixels it inverts, the collision it reports, and the second draw that undoes the first
(spec/45_display.md R191, R192). -/
namespace Sys2Proof.Machine

section
variable {s : State} {x y : Reg} {n : Fin 16}

/-- The pixels of the sprite at `I` are those it covers (R192). -/
theorem mem_spritePixels_block_iff {r : Fin 32} {c : Fin 64} :
    (r, c) ∈ spritePixels (s.getV x).toNat (s.getV y).toNat (s.block n.val) ↔ Covers s x y n r c := by
  simp only [mem_spritePixels, State.block_getElem, State.block_length, exists_prop, Covers]

/-- Some covered pixel was lit. -/
def Collides (s : State) (x y : Reg) (n : Fin 16) : Prop := ∃ r c, Covers s x y n r c ∧ s.disp.lit r c = true

/-- The draw of the sprite at `I`, pixel by pixel: it has at most 15 rows, so it names no pixel twice (R191). -/
theorem draw_block (s : State) (x y : Reg) (n : Fin 16) :
    let result := s.disp.draw false (spritePixels (s.getV x).toNat (s.getV y).toNat (s.block n.val))
    (∀ r c, result.1.lit r c = true ↔ Xor (s.disp.lit r c = true) (Covers s x y n r c)) ∧
    (result.2 = true ↔ Collides s x y n) := by
  have hnodup : (spritePixels (s.getV x).toNat (s.getV y).toNat (s.block n.val)).Nodup :=
    nodup_spritePixels _ _ _ (by rw [State.block_length]; omega)
  obtain ⟨hlit, hhit⟩ := s.disp.draw_nodup false _ hnodup
  refine ⟨fun r c => ?_, hhit.trans ?_⟩
  · rw [hlit, ← mem_spritePixels_block_iff, xor_iff_not_iff, Bool.xor_iff_ne, Ne, Bool.eq_iff_iff,
      decide_eq_true_eq]
  · simp only [Bool.false_eq_true, false_or, Prod.exists, mem_spritePixels_block_iff, Collides]

theorem lit_drawn_iff {r : Fin 32} {c : Fin 64} :
    (s.drawn x y (s.block n.val)).disp.lit r c = true ↔ Xor (s.disp.lit r c = true) (Covers s x y n r c) :=
  (draw_block s x y n).1 r c

theorem getV_VF_drawn_of_collides (h : Collides s x y n) : (s.drawn x y (s.block n.val)).getV VF = 1 := by
  have hhit := (draw_block s x y n).2.mpr h
  exact (s.getV_setV_same VF _).trans (congrArg flagByte hhit)

theorem getV_VF_drawn_of_not_collides (h : ¬ Collides s x y n) : (s.drawn x y (s.block n.val)).getV VF = 0 := by
  have hmiss := Bool.eq_false_iff.mpr (mt (draw_block s x y n).2.mp h)
  exact (s.getV_setV_same VF _).trans (congrArg flagByte hmiss)

end

/-- Settles O36: the state that `State.drawn` names, advanced. -/
theorem drwXorsSprite : Obligations.DrwXorsSprite := by
  intro x y n s hadv h
  exact ⟨_, (exec_drw_inMemory h).trans (congrArg _ (s.advance_ok _ hadv)), fun r c => lit_drawn_iff,
    getV_VF_drawn_of_collides, getV_VF_drawn_of_not_collides, fun k hk => s.getV_setV_ne _ hk, rfl⟩

/-- The sprite lies on the same pixels in a state with the same memory, `I` and coordinates. -/
theorem covers_congr {s t : State} {x y : Reg} (n : Fin 16) (hmem : t.mem = s.mem) (hparams : t.params = s.params)
    (hI : t.I = s.I) (hx : t.getV x = s.getV x) (hy : t.getV y = s.getV y) : Covers t x y n = Covers s x y n := by
  funext r c
  simp only [Covers, State.readByte_congr hmem hparams, hI, hx, hy]

/-- Settles O37: the two inversions cancel, and the second draw finds a covered pixel lit where the first found it
dark. -/
theorem drwTwiceRestoresDisplay : Obligations.DrwTwiceRestoresDisplay := by
  intro x y n s t u hx hy h hs ht hst htu
  obtain ⟨t', hst', hlit1, -, -, -, hframe⟩ := drwXorsSprite x y n s hs h
  obtain rfl : t' = t := Host.Outcome.next.inj (hst'.symm.trans hst)
  have hI : t'.I = s.I := by rw [hframe]
  have hcov : Covers t' x y n = Covers s x y n := covers_congr n (by rw [hframe]) (by rw [hframe]) hI hx hy
  obtain ⟨u', htu', hlit2, hhit, hmiss, -, -⟩ := drwXorsSprite x y n t' ht (hI ▸ h)
  obtain rfl : u' = u := Host.Outcome.next.inj (htu'.symm.trans htu)
  rw [hcov] at hlit2 hhit hmiss
  refine ⟨fun r c => ?restored, ?collision⟩
  case restored =>
    rw [Bool.eq_iff_iff, hlit2, hlit1]
    simp only [xor_iff_not_iff]
    tauto
  case collision =>
    have hlit : ∀ r c, Covers s x y n r c → (t'.disp.lit r c = true ↔ s.disp.lit r c = false) := by
      intro r c hc
      rw [hlit1]
      simp [hc, xor_iff_not_iff]
    have hsame : (∃ r c, Covers s x y n r c ∧ t'.disp.lit r c = true) ↔
        ∃ r c, Covers s x y n r c ∧ s.disp.lit r c = false :=
      exists₂_congr fun r c => and_congr_right (hlit r c)
    rw [← hsame]
    refine ⟨fun hone => by_contra fun hno => ?_, hhit⟩
    exact absurd (hone.symm.trans (hmiss hno)) (by decide)

end Sys2Proof.Machine
end

section
/-! PROOFS. The events of the host and the Step around an instruction (spec/40_execution_cycle.md R110 to R121,
60_exceptions.md R215, 70_reset_and_hazards.md R250). -/
namespace Sys2Proof.Machine

/-! ### SupplyKey (R116) -/

section
variable {s : State} (k : BitVec 4)

theorem State.supplyKey_of_not_waiting (h : s.run ≠ .waitingForKey) : s.supplyKey k = s := by
  unfold State.supplyKey
  split
  next hrun => exact absurd hrun h
  · rfl
  · rfl

theorem State.supplyKey_of_waiting (h : s.run = .waitingForKey) :
    s.supplyKey k = s.advance { s.setV s.waitX (k.setWidth 8) with run := .running } := by
  simp only [State.supplyKey, h]

end

/-- Settles O40: in a wait SupplyKey is a register write closed by Advance. -/
theorem supplyKeyEndsWait : Obligations.SupplyKeyEndsWait := by
  intro k s
  refine ⟨s.supplyKey_of_not_waiting k, fun hwait hadv => ?ends, fun hwait hpc => ?atTop⟩
  case ends =>
    rw [s.supplyKey_of_waiting k hwait, s.advance_ok _ hadv]
    refine ⟨?_, fun r hr => s.getV_setV_ne _ hr, rfl⟩
    exact (congrArg _ (s.getV_setV_same _ _)).trans (BitVec.toNat_setWidth_of_le (by decide))
  case atTop =>
    rw [s.supplyKey_of_waiting k hwait]
    exact s.advance_haltedBy_atTop _ hpc

/-! ### Tick (R115) -/

theorem countDown_toNat (t : Byte) : (countDown t).toNat = t.toNat - 1 := by
  unfold countDown
  split
  · bv_omega
  · omega

/-- Settles O41: `countDown` is the truncated predecessor. -/
theorem tickCountsDown : Obligations.TickCountsDown := by
  intro s
  exact ⟨fun _ => countDown_toNat _, fun h => (countDown_toNat _).trans (by rw [h]), fun _ => countDown_toNat _,
    fun h => (countDown_toNat _).trans (by rw [h]), rfl, rfl, rfl⟩

/-! ### Load and reset (R34, R250) -/

/-- The contents after reset: the font where it stands, and zero (R34). -/
theorem unlisted_eq (fb : Fin 0x1B1) (a : Nat) :
    unlisted fb a = if fb.val ≤ a ∧ a < fb.val + 80 then Config.font.getD (a - fb.val) 0 else 0 := by
  unfold unlisted
  by_cases hlow : a < fb.val
  · rw [if_pos hlow, if_neg (by omega)]
  · by_cases hhigh : a < fb.val + 80
    · rw [if_neg hlow, if_pos ⟨by omega, hhigh⟩]
    · rw [if_neg hlow, if_neg (by omega)]
      exact List.getD_eq_default _ _ (by rw [font_length]; omega)

theorem readByte_load_accepted (s : State) {bytes : List Byte} (h : bytes.length ≤ 3584) (a : Nat) :
    (s.load bytes).readByte a =
      if 0x200 ≤ a then bytes.getD (a - 0x200) (unlisted s.params.fontBase a) else unlisted s.params.fontBase a := by
  rw [State.load_accepted s h]
  exact read_programCells _ a bytes

theorem loadAccepted_of_le {bytes : List Byte} (h : bytes.length ≤ 3584) : loadAccepted bytes = true :=
  decide_eq_true h

/-- Settles O42: the font lies below 0x200 and the program from there on, so each address has one of them at most. -/
theorem loadInstallsProgram : Obligations.LoadInstallsProgram := by
  intro bytes s h
  have hfb := s.params.fontBase.isLt
  refine ⟨fun a => ?memory, ?frame, ?result⟩
  case memory =>
    rw [readByte_load_accepted s h]
    by_cases hlow : 0x200 ≤ a
    · rw [if_pos hlow, unlisted_program _ hlow, if_neg (by omega)]
      by_cases hin : a < 0x200 + bytes.length
      · rw [if_pos ⟨hlow, hin⟩]
      · rw [if_neg (by omega), List.getD_eq_default _ _ (by omega)]
    · rw [if_neg hlow, unlisted_eq]
      congr 1
      rw [if_neg (by omega)]
  case frame => rw [State.load_accepted s h]
  case result => simp only [eventResult, loadAccepted_of_le h, if_true]

/-- Settles O44: closed facts about one state, by evaluation but for the display, which `Display.lit_blank` reads. -/
theorem resetMatchesTable : Obligations.ResetMatchesTable := by
  refine ⟨by decide, rfl, rfl, rfl, by decide, rfl, rfl, Display.lit_blank, rfl, rfl, rfl, ?_⟩
  decide

/-! ### A Step (R111) -/

/-- Settles O45: an empty schedule and a scheduled Step both come to `stepEvent` of the running machine. -/
theorem stepRunsDecodedInstruction : Obligations.StepRunsDecodedInstruction := by
  intro s w i hrun hw hd
  refine ⟨fun hs => (step_of_schedule_nil hs).trans (stepEvent_running hrun hw hd), fun keys rnd rest hs => ?_⟩
  exact (step_of_schedule_cons hs).trans (stepEvent_running (s := { s with schedule := rest }) hrun hw hd)

theorem stepEvent_unknown {inp : Option Inputs} {s : State} {w : Word} {e : DecodeError} (hrun : s.run = .running)
    (hw : s.readWord s.pc.toNat = .ok w) (hd : decode w = .error e) :
    stepEvent inp s = .next (s.raise ⟨.unknownOpcode, w.toNat⟩) := by
  simp only [stepEvent, hrun, fetch, hw, hd]

theorem stepEvent_fetch_raises {inp : Option Inputs} {s : State} {e : Raised} (hrun : s.run = .running)
    (hw : s.readWord s.pc.toNat = .error e) : stepEvent inp s = .next (s.raise e) := by
  simp only [stepEvent, hrun, fetch, hw]

/-- Settles O47: both raise before `exec` is reached, in the state the Step began in. -/
theorem stepRaisesBeforeExecuting : Obligations.StepRaisesBeforeExecuting := by
  intro inp s w hrun
  refine ⟨fun hw hd => ⟨_, stepEvent_unknown hrun hw hd, s.raise_haltedBy _ _, State.wordAtPc_of_ok hw⟩,
    fun hpc => ?fetch⟩
  case fetch =>
    have hw := State.readWord_outOfRange (s := s) (Nat.succ_le_succ hpc)
    exact ⟨_, stepEvent_fetch_raises hrun hw, s.raise_haltedBy _ _, State.wordAtPc_of_error hw⟩

/-! ### The schedule (R117; log 1) -/

/-- An update that SetPC does not see may be made before it or after it: one that leaves `pc` to be written and a fault
to be taken. -/
theorem State.setPC_map {g : State → State} (hpc : ∀ s p, { g s with pc := p } = g { s with pc := p })
    (hraise : ∀ s e, (g s).raise e = g (s.raise e)) (s after : State) (t : Nat) :
    (g s).setPC t (g after) = g (s.setPC t after) := by
  unfold State.setPC
  split
  · exact hpc after _
  · exact hraise s _

def State.setSchedule (s : State) (rest : List Event) : State := { s with schedule := rest }

theorem State.supplyKey_setSchedule (s : State) (k : BitVec 4) (rest : List Event) :
    (s.setSchedule rest).supplyKey k = (s.supplyKey k).setSchedule rest := by
  by_cases h : s.run = .waitingForKey
  · rw [s.supplyKey_of_waiting k h, State.supplyKey_of_waiting k (s := s.setSchedule rest) h]
    exact State.setPC_map (g := (·.setSchedule rest)) (fun _ _ => rfl) (fun _ _ => rfl) s
      { s.setV s.waitX (k.setWidth 8) with run := .running } _
  · rw [s.supplyKey_of_not_waiting k h, State.supplyKey_of_not_waiting k (s := s.setSchedule rest) h]

theorem State.load_setSchedule (s : State) (bytes : List Byte) (rest : List Event) :
    (s.setSchedule rest).load bytes = (s.load bytes).setSchedule rest := by
  unfold State.load
  split <;> rfl

/-- Settles O48: no event of the host reads or writes the schedule. -/
theorem stepTakesScheduledEvents : Obligations.StepTakesScheduledEvents := by
  intro s rest
  exact ⟨step_of_schedule_cons,
    fun k hs => (step_of_schedule_cons hs).trans (congrArg _ (s.supplyKey_setSchedule k rest)),
    fun bytes hs => (step_of_schedule_cons hs).trans (congrArg _ (s.load_setSchedule bytes rest))⟩

/-! ### A halted machine (R215) -/

/-- Settles O52: event by event; a rejected and an accepted Load differ. -/
theorem haltedIsTerminal : Obligations.HaltedIsTerminal := by
  intro e s t hrun ht
  cases e with
  | step keys rnd =>
    have hsame := stepWhenNotRunningChangesNothing (some ⟨keys, rnd⟩) s (by simp [hrun])
    obtain rfl : s = t := Host.Outcome.next.inj (hsame.symm.trans ht)
    exact ⟨fun _ => rfl, nofun, nofun⟩
  | tick =>
    cases ht
    exact ⟨fun _ => rfl, nofun, nofun⟩
  | supplyKey k =>
    have hsame := s.supplyKey_of_not_waiting k (by simp [hrun])
    obtain rfl : s = t := hsame.symm.trans (Host.Outcome.next.inj ht)
    exact ⟨fun _ => rfl, nofun, nofun⟩
  | load bytes =>
    obtain rfl : s.load bytes = t := Host.Outcome.next.inj ht
    refine ⟨fun h => absurd rfl (h bytes), fun b hb hlen => ?accepted, fun b hb hlen => ?rejected⟩
    case accepted =>
      cases hb
      rw [State.load_accepted s hlen]
      exact ⟨rfl, rfl⟩
    case rejected =>
      cases hb
      exact s.load_rejected hlen

/-! ### Two programs of one instruction (R65, R120) -/

/-- Settles O59: the store left the two bytes of the word where `pc` points next. -/
theorem fetchSeesStoredWord : Obligations.FetchSeesStoredWord := by
  intro x s t w hrun hadv hx hI hhi h0 h1 ht
  obtain ⟨heven, hlow, hhigh⟩ := hadv
  have hpc : (s.pc + 2).toNat = s.pc.toNat + 2 := toNat_pc_add hhigh
  have hIpc : s.I.toNat = s.pc.toNat + 2 := hI ▸ hpc
  obtain ⟨t', ht', hframe, hstored, -, -⟩ := storeRegsWritesBlock x s ⟨heven, hlow, hhigh⟩ (by omega) hhi
  obtain rfl : t' = t := Host.Outcome.next.inj (ht'.symm.trans ht)
  have htpc : t'.pc.toNat = s.I.toNat := by rw [hframe, hI]
  have hword : t'.readWord t'.pc.toNat = .ok w := by
    have hbyte0 : t'.readByte s.I.toNat = (w >>> 8).setWidth 8 := (hstored 0 (Nat.zero_le _)).trans h0
    have hbyte1 : t'.readByte (s.I.toNat + 1) = w.setWidth 8 := (hstored 1 hx).trans h1
    rw [htpc, State.readWord_ok (by omega), hbyte0, hbyte1]
    exact congrArg Except.ok (wordOfBytes_highByte_fieldKK w)
  have hrun' : t'.run = .running := by rw [hframe]; exact hrun
  have hsched : t'.schedule = s.schedule := by rw [hframe]
  refine ⟨hword, fun i hd => ?_⟩
  rw [← hsched]
  exact stepRunsDecodedInstruction t' w i hrun' hword hd

/-- Settles O60: the word at `pc` is JP to `pc`, and JP writes `pc` alone. -/
theorem runOverStaysPut : Obligations.RunOverStaysPut := by
  intro s hover hsched
  obtain ⟨hrun, hword, hpc⟩ := hover
  have hsmall : s.pc.toNat < 4096 := by omega
  have htarget : (s.pc.setWidth 12).toNat = s.pc.toNat := by
    rw [BitVec.toNat_setWidth, Nat.mod_eq_of_lt hsmall]
  have henc : encode (.jp (s.pc.setWidth 12)) = BitVec.ofNat 16 (0x1000 + s.pc.toNat) := by
    rw [← htarget]
    rfl
  have hback : (s.pc.setWidth 12).setWidth 16 = s.pc :=
    BitVec.eq_of_toNat_eq ((BitVec.toNat_setWidth_of_le (by decide)).trans htarget)
  have hstep := (stepRunsDecodedInstruction s _ _ hrun hword (henc ▸ decodeInvertsEncode _ rfl)).1 hsched
  have hjump := (jpSetsPcOrFaults (s.pc.setWidth 12) (s.present none)).1 (by rw [htarget]; exact hpc)
  refine ⟨_, hstep.trans hjump, ?_⟩
  simp only [hback]
  rfl

end Sys2Proof.Machine
end

section
/-! PROOFS. Frames of every instruction, read off `exec_cases` (spec/10_state.md R21, R36, 60_exceptions.md R213). -/
namespace Sys2Proof.Machine

theorem execResult_of_next {i : Instr} {s t : State} (h : exec i s = .next t) : ExecResult i s (.next t) :=
  h ▸ exec_cases i s

/-- Settles O53: registers change by `ExecResult.updates` alone. -/
theorem registerFrame : Obligations.RegisterFrame := by
  intro i s t r ht hr
  cases execResult_of_next ht with
  | updates V newI DT ST disp pc _ hV => exact hV r hr
  | _ => rfl

/-- Settles O54: a block store alone writes memory, from 0x200 up and where the instruction may store. -/
theorem memoryFrame : Obligations.MemoryFrame := by
  intro i s t a ht ha
  cases execResult_of_next ht with
  | stores bs newI hlo _ _ hi =>
    have houtside : a < s.I.toNat ∨ s.I.toNat + bs.length ≤ a := by
      by_contra hin
      obtain hno | hreserved := ha
      · exact hno (hi a (by omega) (by omega))
      · omega
    have hparams : s.params = (s.withBytes s.I.toNat bs).params := by rw [State.withBytes_frame]
    rw [← s.readByte_withBytes_outside s.I.toNat bs houtside]
    exact State.readByte_congr (s := { s with mem := (s.withBytes s.I.toNat bs).mem, I := newI, pc := s.pc + 2 })
      (t := s.withBytes s.I.toNat bs) rfl hparams a
  | _ => rfl

/-- Settles O55: the stack changes by `ExecResult.returns` and `ExecResult.calls` alone. -/
theorem stackFrame : Obligations.StackFrame := by
  intro i s t ht
  cases execResult_of_next ht with
  | returns _ _ hi => exact ⟨fun h => absurd hi h.2, fun _ => rfl, fun _ _ => rfl⟩
  | calls nnn hd hi =>
    exact ⟨fun h => absurd hi (h.1 nnn), fun h => absurd hi (h nnn),
      fun j hj => Vector.getElem_set_ne hd j.isLt hj.symm⟩
  | _ => exact ⟨fun _ => rfl, fun _ => rfl, fun _ _ => rfl⟩

/-- Settles O56: the fields named change by `ExecResult.stores` and `ExecResult.updates`, which name their owners. -/
theorem otherStateFrame : Obligations.OtherStateFrame := by
  intro i s t ht
  cases execResult_of_next ht with
  | stores bs newI _ _ _ _ hI =>
    exact ⟨hI.resolve_right, fun _ => rfl, fun _ => rfl, fun _ _ => rfl, rfl, rfl, rfl, rfl⟩
  | updates V newI DT ST disp pc _ _ hI hDT hST hdisp =>
    refine ⟨hI.resolve_right, fun h => ?delay, fun h => ?sound, fun hdrw hcls => ?display, rfl, rfl, rfl, rfl⟩
    case delay => exact hDT.resolve_right fun ⟨x, hx⟩ => h x hx
    case sound => exact hST.resolve_right fun ⟨x, hx⟩ => h x hx
    case display =>
      obtain hsame | hc | ⟨x, y, n, hd⟩ := hdisp
      · exact hsame
      · exact absurd hc hcls
      · exact absurd hd (hdrw x y n)
  | _ => exact ⟨fun _ => rfl, fun _ => rfl, fun _ => rfl, fun _ _ => rfl, rfl, rfl, rfl, rfl⟩

/-- Settles O57: the faults, the key wait and the rest are different cases of `ExecResult`. -/
theorem faultsArePrecise : Obligations.FaultsArePrecise := by
  intro i s t ht
  cases execResult_of_next ht with
  | faults e he => exact .inr (.inr ⟨e.cause, e.info, he, s.raise_haltedBy _ _⟩)
  | waits x hi => exact .inr (.inl ⟨x, hi, rfl⟩)
  | _ => exact .inl ⟨rfl, rfl, rfl⟩

end Sys2Proof.Machine
end

section
/-! PROOFS. The instructions that read no input (spec/40_execution_cycle.md R118). -/
namespace Sys2Proof.Machine

/-- The state with other inputs presented. -/
def State.setInput (s : State) (inp : Option Inputs) : State := { s with input := inp }

/-- The answer with other inputs presented. -/
def setInputOf (inp : Option Inputs) : Result → Result
  | .next t => .next (t.setInput inp)
  | .fault f => .fault f
  | .refused r => .refused r

/-- The instruction answers the same whatever inputs are presented. -/
def IgnoresInput (i : Instr) (s : State) (inp : Option Inputs) : Prop :=
  exec i (s.setInput inp) = setInputOf inp (exec i s)

section
variable {i : Instr} {s : State} {inp : Option Inputs}

theorem State.setPC_setInput (s after : State) (t : Nat) (inp : Option Inputs) :
    (s.setInput inp).setPC t (after.setInput inp) = (s.setPC t after).setInput inp :=
  State.setPC_map (g := (·.setInput inp)) (fun _ _ => rfl) (fun _ _ => rfl) s after t

theorem IgnoresInput.of_advance {after : State} (h : exec i s = .next (s.advance after))
    (h' : exec i (s.setInput inp) = .next ((s.setInput inp).advance (after.setInput inp))) : IgnoresInput i s inp := by
  rw [IgnoresInput, h, h']
  exact congrArg Host.Outcome.next (s.setPC_setInput after _ inp)

theorem IgnoresInput.of_skipIf {b : Bool} (h : exec i s = .next (s.skipIf b))
    (h' : exec i (s.setInput inp) = .next ((s.setInput inp).skipIf b)) : IgnoresInput i s inp := by
  rw [IgnoresInput, h, h']
  cases b with
  | false => exact congrArg Host.Outcome.next (s.setPC_setInput s _ inp)
  | true => exact congrArg Host.Outcome.next (s.setPC_setInput s _ inp)

theorem IgnoresInput.of_raise {e : Raised} (h : exec i s = .next (s.raise e))
    (h' : exec i (s.setInput inp) = .next ((s.setInput inp).raise e)) : IgnoresInput i s inp := by
  rw [IgnoresInput, h, h']
  rfl

end

/-! ### Block accesses -/

theorem State.loadBytes_setInput (s : State) (inp : Option Inputs) (a len : Nat) :
    (s.setInput inp).loadBytes a len = s.loadBytes a len := by
  induction len generalizing a with
  | zero => rfl
  | succ len ih =>
    rw [State.loadBytes, State.loadBytes, ih]
    rfl

theorem State.write8_setInput (s : State) (inp : Option Inputs) (a : Nat) (v : Byte) :
    (s.setInput inp).write8 a v = (s.write8 a v).map (·.setInput inp) := by
  unfold State.write8
  split
  · rfl
  · split <;> rfl

theorem State.storeBytes_setInput (s : State) (inp : Option Inputs) (a : Nat) (bs : List Byte) :
    (s.setInput inp).storeBytes a bs = (s.storeBytes a bs).map (·.setInput inp) := by
  induction bs generalizing s a with
  | nil => rfl
  | cons b bs ih =>
    rw [State.storeBytes, State.storeBytes, State.write8_setInput]
    cases s.write8 a b with
    | error e => rfl
    | ok s' => exact ih s' (a + 1)

section
variable (s : State) (inp : Option Inputs) (x : Reg)

theorem ldB_ignoresInput : IgnoresInput (.ldB x) s inp := by
  have hsame := s.storeBytes_setInput inp s.I.toNat (decimalDigits (s.getV x))
  cases hstore : s.storeBytes s.I.toNat (decimalDigits (s.getV x)) with
  | error e => exact .of_raise (exec_ldB_of_raise hstore) (exec_ldB_of_raise (hsame.trans (by rw [hstore]; rfl)))
  | ok after => exact .of_advance (exec_ldB_of_store hstore) (exec_ldB_of_store (hsame.trans (by rw [hstore]; rfl)))

theorem storeRegs_ignoresInput : IgnoresInput (.storeRegs x) s inp := by
  have hsame := s.storeBytes_setInput inp s.I.toNat (s.regsUpTo x)
  cases hstore : s.storeBytes s.I.toNat (s.regsUpTo x) with
  | error e =>
    exact .of_raise (exec_storeRegs_of_raise hstore) (exec_storeRegs_of_raise (hsame.trans (by rw [hstore]; rfl)))
  | ok after =>
    exact .of_advance (exec_storeRegs_of_store hstore) (exec_storeRegs_of_store (hsame.trans (by rw [hstore]; rfl)))

theorem loadRegs_ignoresInput : IgnoresInput (.loadRegs x) s inp := by
  have hsame := s.loadBytes_setInput inp s.I.toNat (x.val + 1)
  cases hload : s.loadBytes s.I.toNat (x.val + 1) with
  | error e => exact .of_raise (exec_loadRegs_of_raise hload) (exec_loadRegs_of_raise (hsame.trans hload))
  | ok bytes => exact .of_advance (exec_loadRegs_of_load hload) (exec_loadRegs_of_load (hsame.trans hload))

theorem drw_ignoresInput (y : Reg) (n : Fin 16) : IgnoresInput (.drw x y n) s inp := by
  have hsame := s.loadBytes_setInput inp s.I.toNat n.val
  cases hload : s.loadBytes s.I.toNat n.val with
  | error e => exact .of_raise (exec_drw_of_raise hload) (exec_drw_of_raise (hsame.trans hload))
  | ok sprite => exact .of_advance (exec_drw_of_load hload) (exec_drw_of_load (hsame.trans hload))

/-! ### Control transfer -/

theorem sys_ignoresInput (nnn : Addr12) : IgnoresInput (.sys nnn) s inp := by
  cases hpolicy : s.params.sysPolicy with
  | nop => exact .of_advance (execSys_nop hpolicy) (execSys_nop (s := s.setInput inp) hpolicy)
  | fatal => exact .of_raise (execSys_fatal hpolicy) (execSys_fatal (s := s.setInput inp) hpolicy)

theorem ret_ignoresInput : IgnoresInput .ret s inp := by
  by_cases h0 : s.SP = 0
  · exact .of_raise (execRet_empty h0) (execRet_empty (s := s.setInput inp) h0)
  by_cases hd : s.SP.toNat - 1 < Config.stackDepth
  · exact (execRet_pops (s := s.setInput inp) hd h0).trans ((congrArg Host.Outcome.next
      (State.setPC_setInput s { s with SP := s.SP - 1 } _ inp)).trans
        (congrArg (setInputOf inp) (execRet_pops hd h0)).symm)
  · have hstop : Config.stackDepth < s.SP.toNat := by
      simp only [Config.stackDepth] at hd ⊢
      omega
    exact (execRet_noEntry (s := s.setInput inp) hstop).trans
      (congrArg (setInputOf inp) (execRet_noEntry hstop)).symm

theorem call_ignoresInput (nnn : Addr12) : IgnoresInput (.call nnn) s inp := by
  by_cases hfull : s.SP.toNat = Config.stackDepth
  · exact .of_raise (execCall_full hfull) (execCall_full (s := s.setInput inp) hfull)
  by_cases hret : 0xFFE < s.pc.toNat + 2
  · exact .of_raise (execCall_badReturn hfull hret) (execCall_badReturn (s := s.setInput inp) hfull hret)
  have hret' : s.pc.toNat + 2 ≤ 0xFFE := Nat.not_lt.mp hret
  by_cases hp : PcValue nnn.toNat
  · obtain hlt | hgt := Nat.lt_or_gt_of_ne hfull
    · exact (execCall_goes (s := s.setInput inp) hlt hret' hp).trans
        (congrArg (setInputOf inp) (execCall_goes hlt hret' hp)).symm
    · exact (execCall_noEntry (s := s.setInput inp) hgt hret' hp).trans
        (congrArg (setInputOf inp) (execCall_noEntry hgt hret' hp)).symm
  · exact .of_raise (execCall_badTarget hfull hret' hp) (execCall_badTarget (s := s.setInput inp) hfull hret' hp)

end

/-- Every instruction but SKP, SKNP and RND computes what it writes from the other fields. -/
theorem exec_ignoresInput {i : Instr} (s : State) (inp : Option Inputs) (h : ¬ readsInput i) :
    IgnoresInput i s inp := by
  cases i with
  | cls => exact .of_advance rfl rfl
  | ret => exact ret_ignoresInput s inp
  | sys nnn => exact sys_ignoresInput s inp nnn
  | jp nnn => exact congrArg Host.Outcome.next (s.setPC_setInput s _ inp)
  | call nnn => exact call_ignoresInput s inp nnn
  | seImm x kk => exact .of_skipIf rfl rfl
  | sneImm x kk => exact .of_skipIf rfl rfl
  | seReg x y => exact .of_skipIf rfl rfl
  | ldImm x kk => exact .of_advance rfl rfl
  | addImm x kk => exact .of_advance rfl rfl
  | ldReg x y => exact .of_advance rfl rfl
  | orReg x y => exact .of_advance rfl rfl
  | andReg x y => exact .of_advance rfl rfl
  | xorReg x y => exact .of_advance rfl rfl
  | addReg x y => exact .of_advance rfl rfl
  | sub x y => exact .of_advance rfl rfl
  | shr x y => exact .of_advance rfl rfl
  | subn x y => exact .of_advance rfl rfl
  | shl x y => exact .of_advance rfl rfl
  | sneReg x y => exact .of_skipIf rfl rfl
  | ldI nnn => exact .of_advance rfl rfl
  | jpV0 nnn => exact congrArg Host.Outcome.next (s.setPC_setInput s _ inp)
  | rnd x kk => exact absurd (.inr (.inr ⟨x, kk, rfl⟩)) h
  | drw x y n => exact drw_ignoresInput s inp x y n
  | skp x => exact absurd (.inl ⟨x, rfl⟩) h
  | sknp x => exact absurd (.inr (.inl ⟨x, rfl⟩)) h
  | ldVxDT x => exact .of_advance rfl rfl
  | ldVxK x => rfl
  | ldDTVx x => exact .of_advance rfl rfl
  | ldSTVx x => exact .of_advance rfl rfl
  | addI x => exact .of_advance rfl rfl
  | ldF x => exact .of_advance rfl rfl
  | ldB x => exact ldB_ignoresInput s inp x
  | storeRegs x => exact storeRegs_ignoresInput s inp x
  | loadRegs x => exact loadRegs_ignoresInput s inp x

/-- Settles O58: the case of `exec_ignoresInput` for each answer. -/
theorem inputsReadByThreeOnly : Obligations.InputsReadByThreeOnly := by
  intro i s inp h
  have hsame := exec_ignoresInput s inp h
  exact ⟨fun t ht => hsame.trans (congrArg (setInputOf inp) ht), fun f hf => hsame.trans (congrArg (setInputOf inp) hf)⟩

end Sys2Proof.Machine
end
